-- ==== Sys2Proof/Word.lean ====
section
/-! DEFINITION. The word types of the AMBE 49->72 FEC encoder core.

The spec's ordered sequences are carried as bit vectors with element 0 the most significant bit
(10_state.md R36, 20_memory.md R50 to R54), so "element i" of a sequence is bit number i counted from
the most significant end (`BitVec.getMsbD`), and "bit i" of a value is `BitVec.getLsbD` (00_scope.md R12, R13). -/

namespace Sys2Proof

/-- One byte of the input or output byte string (00_scope.md R7). -/
abbrev Byte := BitVec 8

/-- The 128-bit command word the host writes to CMD (30_encoding.md R70). -/
abbrev CmdWord := BitVec 128

/-- The 128-bit word a host read of RESP returns (10_state.md R35). -/
abbrev RespWord := BitVec 128

/-- The 96-bit operand field OPND of a command word (30_encoding.md R70). -/
abbrev Operand := BitVec 96

/-- The AMBE49 vector: the element `v(i)` is the i-th bit from the most significant end
(00_scope.md R13, 20_memory.md R53). -/
abbrev Ambe49 := BitVec 49

/-- The 4x24 frame matrix in its 96-bit form: the cell with flat index n = 24r+c is the n-th bit from
the most significant end, bit 95-n (10_state.md R36). -/
abbrev FrameMatrix := BitVec 96

end Sys2Proof
end

