-- ==== Sys2Proof/Machine/Permutation.lean ====
section
/-! DEFINITION. The permutation ROM's table, the cells it names, and the check `WF(PERM)` a table must pass
(00_scope.md R9; 10_state.md R37; 44_interleaver.md R180 to R183). -/

namespace Sys2Proof

/-- The populated set P of matrix cells: row 0 columns 0..23, row 1 columns 1..23, row 2 columns
13..23, row 3 columns 10..23 (42_fec_field_encoder.md R146). -/
def populated (r c : Nat) : Bool :=
  match r with
  | 0 => decide (c ≤ 23)
  | 1 => decide (1 ≤ c ∧ c ≤ 23)
  | 2 => decide (13 ≤ c ∧ c ≤ 23)
  | 3 => decide (10 ≤ c ∧ c ≤ 23)
  | _ => false

/-- The contents offered for the permutation ROM: four tables of natural numbers (00_scope.md R9,
10_state.md R37). Nothing is checked yet; see `PermTable.wf`. -/
structure PermTable where
  /-- the row of pair i's high bit -/
  rW : List Nat
  /-- the column of pair i's high bit -/
  rX : List Nat
  /-- the row of pair i's low bit -/
  rY : List Nat
  /-- the column of pair i's low bit -/
  rZ : List Nat
deriving DecidableEq, Repr

/-- The cell `(rW(i), rX(i))` from which pair i takes its high bit (44_interleaver.md R184). -/
def PermTable.hiCell (t : PermTable) (i : Nat) : Nat × Nat := (t.rW.getD i 0, t.rX.getD i 0)

/-- The cell `(rY(i), rZ(i))` from which pair i takes its low bit (44_interleaver.md R184). -/
def PermTable.loCell (t : PermTable) (i : Nat) : Nat × Nat := (t.rY.getD i 0, t.rZ.getD i 0)

/-- The 72 cells the interleaver reads, in the order of the output stream (44_interleaver.md R181, R186). -/
def PermTable.cells (t : PermTable) : List (Nat × Nat) :=
  (List.range 36).flatMap fun i => [t.hiCell i, t.loCell i]

/-- 36 entries in each table (00_scope.md R9). -/
def PermTable.sized (t : PermTable) : Bool :=
  t.rW.length == 36 && t.rX.length == 36 && t.rY.length == 36 && t.rZ.length == 36

/-- Entry ranges: rows in 0..3, columns in 0..23 (44_interleaver.md R180). -/
def PermTable.inRange (t : PermTable) : Bool :=
  t.rW.all (· ≤ 3) && t.rX.all (· ≤ 23) && t.rY.all (· ≤ 3) && t.rZ.all (· ≤ 23)

/-- The 72 cells are pairwise distinct (44_interleaver.md R181). -/
def PermTable.distinct (t : PermTable) : Bool := decide t.cells.Nodup

/-- Only populated cells are read (44_interleaver.md R182). -/
def PermTable.populatedOnly (t : PermTable) : Bool := t.cells.all fun rc => populated rc.1 rc.2

/-- `WF(PERM)` (44_interleaver.md R183): the sizes of 00_scope.md R9 and the rules R180, R181, R182. -/
def PermTable.wf (t : PermTable) : Bool := t.sized && t.inRange && t.distinct && t.populatedOnly

/-- T_DEMO, the spec's test table (95_test_vectors.md section 2). It is NOT the hardware's table: it
serves tests, and shows that a well-formed table exists. -/
def PermTable.demo : PermTable where
  rW := [0, 0, 0, 0, 0, 0, 0, 0, 0, 0, 0, 0] ++ [1, 1, 1, 1, 1, 1, 1, 1, 1, 1, 1, 1] ++ [2, 2, 2, 2, 2] ++
    [3, 3, 3, 3, 3, 3, 3]
  rX := [0, 2, 4, 6, 8, 10, 12, 14, 16, 18, 20, 22] ++ [1, 3, 5, 7, 9, 11, 13, 15, 17, 19, 21, 23] ++
    [14, 16, 18, 20, 22] ++ [10, 12, 14, 16, 18, 20, 22]
  rY := [0, 0, 0, 0, 0, 0, 0, 0, 0, 0, 0, 0] ++ [1, 1, 1, 1, 1, 1, 1, 1, 1, 1, 1] ++ [2, 2, 2, 2, 2, 2] ++
    [3, 3, 3, 3, 3, 3, 3]
  rZ := [1, 3, 5, 7, 9, 11, 13, 15, 17, 19, 21, 23] ++ [2, 4, 6, 8, 10, 12, 14, 16, 18, 20, 22] ++
    [13, 15, 17, 19, 21, 23] ++ [11, 13, 15, 17, 19, 21, 23]

theorem PermTable.demo_wf : PermTable.demo.wf = true := by decide +kernel

/-- A permutation ROM: a table together with the proof of `WF(PERM)`. "no CORE with such a table is
modelled" (44_interleaver.md R183): a state cannot hold an ill-formed table. The default field values
only show that the type is inhabited. -/
structure Perm where
  table : PermTable := PermTable.demo
  wf : table.wf = true := by exact PermTable.demo_wf
deriving DecidableEq, Repr, Inhabited

end Sys2Proof
end

