-- ==== Sys2Proof/Config.lean ====
section
/-! DEFINITION. What is fixed for one machine: the permutation ROM `PERM`, whose values the spec leaves OPEN
(00_scope.md R9, 44_interleaver.md R190). The table type and the check `WF(PERM)` stand in
Machine/Permutation.lean. -/

namespace Sys2Proof

/-- The hardware's PERM: the OPEN parameter of 00_scope.md R9, a constant with no body. Nothing can be
proved of it but what holds of every well-formed table (log entry 1, DESIGN CHOICE). -/
opaque Config.perm : Perm

end Sys2Proof
end

