-- ==== Sys2Proof/Machine/State.lean ====
section
/-! DEFINITION. The state of one CORE instance: RESP and the permutation ROM (10_state.md R31), and the
model's own two fields that hold the host's actions and what its reads returned (log entries 2 and 4). -/

namespace Sys2Proof.Machine

open Sys2Proof

/-- The response register RESP (10_state.md R35). Its fourth field, RZERO = bits 111:96, is hardwired 0
and holds nothing: `Resp.word`, the one operation that reads RESP, supplies the zeros. -/
structure Resp where
  /-- bits 127:120, the outcome code of the last command (30_encoding.md R76) -/
  status : BitVec 8
  /-- bits 119:112, the OPC field of the command that produced this response -/
  ropc : BitVec 8
  /-- bits 95:0, the result (30_encoding.md R82) -/
  result : BitVec 96
deriving DecidableEq, Repr

/-- What the host does to the CORE (10_state.md R34, R35; 70_reset_and_hazards.md R230). -/
inductive HostAction where
  /-- one 128-bit write of CMD, which executes one command (R34) -/
  | writeCmd (w : CmdWord)
  /-- one 128-bit read of RESP, which has no side effect on the CORE (R35) -/
  | readResp
  /-- a reset; power-on is a reset (R230) -/
  | reset
deriving DecidableEq, Repr

/-- The whole state. `resp` and `perm` are the spec's (10_state.md R31); `host` and `seen` are the
model's own (DESIGN CHOICE, log entries 2 and 4). -/
structure State where
  /-- RESP, written by every command and by reset (10_state.md R35) -/
  resp : Resp
  /-- PERM, the permutation ROM, which no command and no reset writes (10_state.md R37) -/
  perm : Perm
  /-- the host's actions still to be performed, the next one first (20_memory.md R60) -/
  host : List HostAction
  /-- the words the RESP reads have returned, oldest first -/
  seen : List RespWord
deriving DecidableEq, Repr

/-- Faults: none. "it never faults, never gets stuck and never hangs" (60_exceptions.md R216); an error
is an ordinary outcome reported in RESP (R209). Safe: the type has no value, so no step can fault. -/
inductive Fault
deriving DecidableEq, Repr

/-- Why something is refused. -/
inductive Refusal where
  /-- An instruction without a meaning: raised by a refused arm of `exec`. No arm is refused in this
  model, so no step raises it. Safe. -/
  | notModelled (mnemonic : String)
  /-- The table offered for PERM fails `WF(PERM)`: raised by `State.configure` and by no step, "The only
  refusal is of an ill-formed PERM, at configuration" (60_exceptions.md R216, 44_interleaver.md R183).
  Safe: no claim is stated over such a CORE. -/
  | illFormedPerm
deriving DecidableEq, Repr

/-- The value of RESP after reset: STATUS = 0xFF (NO_RESULT), the rest 0 (10_state.md R41). -/
def Resp.reset : Resp where
  status := 0xFF#8
  ropc := 0x00#8
  result := 0#96

/-- The machine right after reset: RESP at its reset value (10_state.md R41), PERM the OPEN table of the
configuration (log entry 1), no host action pending and none seen (log entries 2 and 4). -/
def State.reset : State where
  resp := Resp.reset
  perm := Config.perm
  host := []
  seen := []

end Sys2Proof.Machine
end

