-- ==== Sys2Proof/Machine/Operands.lean ====
section
/-! DEFINITION. Sequences and matrices as bit vectors, the operand of every command and the placement of
its result (10_state.md R36; 20_memory.md R50 to R54; 30_encoding.md R81, R82). -/

namespace Sys2Proof.Machine

open Sys2Proof

/-- The sequence `f 0, f 1, …, f (n-1)` as an n-bit value, element 0 the most significant bit. -/
def ofSeq : (n : Nat) → (Nat → Bool) → BitVec n
  | 0, _ => 0#0
  | n + 1, f => (ofSeq n f).concat (f n)

/-- The cell `M[r][c]`: flat index 24r+c, bit 95-(24r+c) (10_state.md R36). -/
def cell (M : FrameMatrix) (r c : Nat) : Bool := M.getMsbD (24 * r + c)

/-- The matrix whose cell `M[r][c]` is `f r c` (10_state.md R36). -/
def ofCells (f : Nat → Nat → Bool) : FrameMatrix := ofSeq 96 fun n => f (n / 24) (n % 24)

/-- `rowval(M, r)`: row r as a 24-bit value, column 0 its bit 23 (10_state.md R36). -/
def rowval (M : FrameMatrix) (r : Nat) : BitVec 24 := ofSeq 24 fun c => cell M r c

/-- The input bytes of ENCODE and UNPACK: `b(k)` = OPND[55-8k : 48-8k], k in 0..6 (30_encoding.md R81). -/
def operandBytes (opnd : Operand) : List Byte := (List.range 7).map fun k => opnd.extractLsb' (48 - 8 * k) 8

/-- The operand of GOLAY: `d` = OPND[11:0] (30_encoding.md R81). -/
def operandData (opnd : Operand) : BitVec 12 := opnd.extractLsb' 0 12

/-- The operand of PARITY: `w` = OPND[23:0] (30_encoding.md R81). -/
def operandWord (opnd : Operand) : BitVec 24 := opnd.extractLsb' 0 24

/-- The operand of ASSEMBLE: `v(i)` = OPND[48-i] (30_encoding.md R81). -/
def operandVector (opnd : Operand) : Ambe49 := opnd.extractLsb' 0 49

/-- The operand of SCRAMBLE and INTERLEAVE: `M[r][c]` = OPND[95-(24r+c)] (30_encoding.md R81). -/
def operandMatrix (opnd : Operand) : FrameMatrix := opnd

/-- `zext_96(x)`: a result in the low bits of RESULT, the bits above it 0 (30_encoding.md R82). -/
def resultBits {n : Nat} (x : BitVec n) : BitVec 96 := x.setWidth 96

/-- `zext_96(out(0) ++ out(1) ++ …)`: a byte string in the low bits of RESULT, big-endian
(20_memory.md R52, 30_encoding.md R82). -/
def resultBytes (out : List Byte) : BitVec 96 := out.foldl (fun x b => (x <<< 8) ||| b.setWidth 96) 0#96

end Sys2Proof.Machine
end

