-- ==== Sys2Proof/Syntax.lean ====
section
/-! DEFINITION. The syntax: the seven commands of spec/opcode_table.json and the source lines of the
assembler (30_encoding.md R77, R83, R84). -/

namespace Sys2Proof

/-- A legal command, one constructor per row of the opcode table. Every constructor keeps the WHOLE
96-bit OPND field, so that the rule "Operand bits outside those positions are ignored" (30_encoding.md
R74) is a fact about the meanings and no bit of a word is lost in decoding. LEN is kept where it may
vary (ENCODE, UNPACK); elsewhere a legal word has LEN = 0 (R72). -/
inductive Instr where
  /-- OPC 0x01 ENCODE: 7 bytes to 9 bytes, the whole pipeline (40_encode_pipeline.md R102). -/
  | encode (len : BitVec 8) (opnd : Operand)
  /-- OPC 0x02 UNPACK: 7 bytes to the AMBE49 vector (41_unpacker.md R123). -/
  | unpack (len : BitVec 8) (opnd : Operand)
  /-- OPC 0x03 GOLAY: 12 data bits to the 23-bit codeword (42_fec_field_encoder.md R138). -/
  | golay (opnd : Operand)
  /-- OPC 0x04 PARITY: the parity bit of a 24-bit word (42_fec_field_encoder.md R139). -/
  | parity (opnd : Operand)
  /-- OPC 0x05 ASSEMBLE: the AMBE49 vector to the frame matrix (42_fec_field_encoder.md R149). -/
  | assemble (opnd : Operand)
  /-- OPC 0x06 SCRAMBLE: a matrix to the scrambled matrix (43_scrambler.md R170). -/
  | scramble (opnd : Operand)
  /-- OPC 0x07 INTERLEAVE: a matrix to 9 bytes (44_interleaver.md R189). -/
  | interleave (opnd : Operand)
deriving DecidableEq, Repr

/-- One source line of the assembler (30_encoding.md R83), its operands as the numbers written, before
any range check; `encodeSeven` and `unpackSeven` are the two pseudo-instructions (R84). -/
inductive AsmLine where
  | encode (len bytes : Nat)
  | encodeSeven (bytes : Nat)
  | unpack (len bytes : Nat)
  | unpackSeven (bytes : Nat)
  | golay (d : Nat)
  | parity (w : Nat)
  | assemble (v : Nat)
  | scramble (m : Nat)
  | interleave (m : Nat)
  /-- `.word x`: any 128-bit value, written to CMD as is. -/
  | word (x : Nat)
deriving DecidableEq, Repr

end Sys2Proof
end

