-- ==== Sys2Proof/WellFormed.lean ====
section
/-! DEFINITION. Well-formedness of syntax. A value of `Instr` needs no check: its fields have exactly
the widths of the command word (30_encoding.md R70), and every value of them is legal (R72, R74). What is
checked is a source line of the assembler. (The check of the permutation table, `WF(PERM)`, stands with
the table in Machine/Permutation.lean.) -/

namespace Sys2Proof

/-- "An operand too large for its field is an assembly error" (30_encoding.md R83). -/
def AsmLine.wf : AsmLine → Bool
  | .encode len bytes => decide (len < 2 ^ 8) && decide (bytes < 2 ^ 56)
  | .encodeSeven bytes => decide (bytes < 2 ^ 56)
  | .unpack len bytes => decide (len < 2 ^ 8) && decide (bytes < 2 ^ 56)
  | .unpackSeven bytes => decide (bytes < 2 ^ 56)
  | .golay d => decide (d < 2 ^ 12)
  | .parity w => decide (w < 2 ^ 24)
  | .assemble v => decide (v < 2 ^ 49)
  | .scramble m => decide (m < 2 ^ 96)
  | .interleave m => decide (m < 2 ^ 96)
  | .word x => decide (x < 2 ^ 128)

end Sys2Proof
end

