-- ==== Sys2Proof/Decode.lean ====
section
/-! DEFINITION. Decoding of command words, total on all 2^128 of them, and the encoder
(30_encoding.md R70 to R80). -/

namespace Sys2Proof

/-- The field OPC, bits 127:120 (30_encoding.md R70). -/
def opcField (w : CmdWord) : BitVec 8 := w.extractLsb' 120 8

/-- The field LEN, bits 119:112 (30_encoding.md R70). -/
def lenField (w : CmdWord) : BitVec 8 := w.extractLsb' 112 8

/-- The field RSVD, bits 111:96 (30_encoding.md R70). -/
def rsvdField (w : CmdWord) : BitVec 16 := w.extractLsb' 96 16

/-- The field OPND, bits 95:0 (30_encoding.md R70). -/
def opndField (w : CmdWord) : Operand := w.extractLsb' 0 96

/-- Why a command word is illegal: the three cases of 30_encoding.md R79. -/
inductive IllegalWord where
  /-- (a) OPC = 0x00 or OPC in 0x08..0xFF. -/
  | reservedOpcode
  /-- (b) RSVD != 0. -/
  | nonzeroRsvd
  /-- (c) LEN != 0 with OPC in 0x03..0x07. -/
  | nonzeroLen
deriving DecidableEq, Repr

/-- The legal command with a given opcode number, LEN and OPND, for an opcode of the map
(30_encoding.md R77); no command outside it. -/
def commandOf (opc : Nat) (len : BitVec 8) (opnd : Operand) : Option Instr :=
  match opc with
  | 1 => some (.encode len opnd)
  | 2 => some (.unpack len opnd)
  | 3 => some (.golay opnd)
  | 4 => some (.parity opnd)
  | 5 => some (.assemble opnd)
  | 6 => some (.scramble opnd)
  | 7 => some (.interleave opnd)
  | _ => none

/-- `Decode(cmd)` with its checks in the order of 30_encoding.md R78. The length check of ENCODE and
UNPACK is not part of decoding. -/
def decode (w : CmdWord) : Except IllegalWord Instr :=
  match commandOf (opcField w).toNat (lenField w) (opndField w) with
  | none => .error .reservedOpcode
  | some i =>
    if rsvdField w ≠ 0#16 then .error .nonzeroRsvd
    else if 3 ≤ (opcField w).toNat ∧ lenField w ≠ 0#8 then .error .nonzeroLen
    else .ok i

/-- The OPC value of a command (30_encoding.md R77). -/
def Instr.opc : Instr → BitVec 8
  | .encode _ _ => 0x01#8
  | .unpack _ _ => 0x02#8
  | .golay _ => 0x03#8
  | .parity _ => 0x04#8
  | .assemble _ => 0x05#8
  | .scramble _ => 0x06#8
  | .interleave _ => 0x07#8

/-- The LEN value of a command: 0 but for ENCODE and UNPACK (30_encoding.md R72). -/
def Instr.len : Instr → BitVec 8
  | .encode l _ => l
  | .unpack l _ => l
  | .golay _ => 0#8
  | .parity _ => 0#8
  | .assemble _ => 0#8
  | .scramble _ => 0#8
  | .interleave _ => 0#8

/-- The OPND field of a command. -/
def Instr.opnd : Instr → Operand
  | .encode _ o => o
  | .unpack _ o => o
  | .golay o => o
  | .parity o => o
  | .assemble o => o
  | .scramble o => o
  | .interleave o => o

/-- A command word from its four fields, `OPC ++ LEN ++ RSVD ++ OPND` (30_encoding.md R70). -/
def mkCmd (opc len : BitVec 8) (rsvd : BitVec 16) (opnd : Operand) : CmdWord :=
  opc ++ len ++ rsvd ++ opnd

/-- The word of a command, RSVD = 0 (30_encoding.md R70, R73, R77). -/
def encode (i : Instr) : CmdWord := mkCmd i.opc i.len 0#16 i.opnd

/-- What the decoder reads from the low `nbits` bits of `w`, the bits above them 0. A command word is
one word, bit 0 its least significant bit, so the opcode table's numbering is the word's own. -/
def decodeTableWord (nbits w : Nat) : Option Instr :=
  match decode (BitVec.ofNat 128 (w % 2 ^ nbits)) with
  | .ok i => some i
  | .error _ => none

end Sys2Proof
end

