-- ==== Sys2Proof/Machine/Flags.lean ====
section
/-! DEFINITION. RESP.STATUS, the only status indicator (10_state.md R39): its codes and the two errors
that set them (30_encoding.md R76, 60_exceptions.md R200 to R206). -/

namespace Sys2Proof.Machine

/-- STATUS 0x00 OK: the command completed (30_encoding.md R76, 60_exceptions.md R205). -/
def statusOk : BitVec 8 := 0x00#8

/-- STATUS 0x01 INVALID_INPUT_LENGTH: ENCODE or UNPACK with LEN != 7 (30_encoding.md R76). -/
def statusInvalidInputLength : BitVec 8 := 0x01#8

/-- STATUS 0x02 ILLEGAL_COMMAND: an illegal command word (30_encoding.md R76). -/
def statusIllegalCommand : BitVec 8 := 0x02#8

/-- STATUS 0xFF NO_RESULT: only by reset (30_encoding.md R76). -/
def statusNoResult : BitVec 8 := 0xFF#8

/-- The two errors of the CORE; "No other error exists" (60_exceptions.md R201 to R203). -/
inductive CoreError where
  | invalidInputLength
  | illegalCommand
deriving DecidableEq, Repr

/-- `code(E)` (60_exceptions.md R204). -/
def CoreError.code : CoreError → BitVec 8
  | .invalidInputLength => statusInvalidInputLength
  | .illegalCommand => statusIllegalCommand

end Sys2Proof.Machine
end

