-- ==== Sys2Proof/Machine/Ops.lean ====
section
/-! DEFINITION. The operations every command shares: writing and reading RESP, reporting an error,
reset, configuration, and taking the host's next action. There are no memory operations: the CORE has no
memory (20_memory.md R55). -/

namespace Sys2Proof.Machine

open Sys2Proof

/-- `mkResp(status, opc, result)` (30_encoding.md R75). -/
def mkResp (status opc : BitVec 8) (result : BitVec 96) : Resp where
  status := status
  ropc := opc
  result := result

/-- The 128-bit value a host read of RESP returns: STATUS, ROPC, RZERO hardwired 0, RESULT
(10_state.md R35, 30_encoding.md R75). -/
def Resp.word (r : Resp) : RespWord := r.status ++ r.ropc ++ 0#16 ++ r.result

/-- `RESP <- v` (00_scope.md R15, 30_encoding.md R75). -/
def State.setResp (s : State) (r : Resp) : State := { s with resp := r }

/-- A command that raises nothing ends with `RESP <- mkResp(0x00, CMD.OPC, result)`
(60_exceptions.md R205). -/
def respond (opc : BitVec 8) (result : BitVec 96) (s : State) : State :=
  s.setResp (mkResp statusOk opc result)

/-- `raise E()` ends the command with `RESP <- mkResp(code(E), CMD.OPC, 0)` (60_exceptions.md R204).
This is all that taking an error does: no state is saved, no mode changes and no handler address exists
(R209, R211), and there is no return from it (R212). -/
def raise (e : CoreError) (opc : BitVec 8) (s : State) : State :=
  s.setResp (mkResp e.code opc 0#96)

/-- The answer to an illegal command word: IllegalCommand with ROPC = the word's OPC field, whatever its
value (60_exceptions.md R202). -/
def answerIllegal (w : CmdWord) (s : State) : State := raise .illegalCommand (opcField w) s

/-- Reset: RESP takes its reset value and PERM is unchanged (70_reset_and_hazards.md R230, 10_state.md
R41, R42). The host's own actions and what it has seen are no state of the CORE and stay (log entry 9). -/
def applyReset (s : State) : State := s.setResp Resp.reset

/-- A host read of RESP returns the value last written and has no side effect on the CORE
(10_state.md R35, 20_memory.md R59, R60); the word returned is kept in `seen`. -/
def readResp (s : State) : State := { s with seen := s.seen ++ [s.resp.word] }

/-- The host's next action and the state in which it has been taken off the list; none when the host has
nothing more to do (log entry 3). -/
def takeAction (s : State) : Option (HostAction × State) :=
  match s.host with
  | [] => none
  | a :: rest => some (a, { s with host := rest })

/-- Boot: PERM is fixed, then reset, then any command (70_reset_and_hazards.md R233, R234). A table that
fails `WF(PERM)` is refused (44_interleaver.md R183, 60_exceptions.md R216). -/
def State.configure (t : PermTable) : Host.Outcome State Fault Refusal :=
  if h : t.wf = true then .next { State.reset with perm := { table := t, wf := h } }
  else .refused .illFormedPerm

end Sys2Proof.Machine
end

