-- ==== Sys2Proof/Machine/Fec.lean ====
section
/-! DEFINITION. The FEC field encoder: Golay(23,12), parity, field assembly, and the commands GOLAY,
PARITY and ASSEMBLE (spec file 42_fec_field_encoder.md). -/

namespace Sys2Proof.Machine

open Sys2Proof

/-- `GOLAY_POLY` (00_scope.md R8; taken as written, log entry 13). -/
def golayPoly : BitVec 12 := 0xAE3#12

/-- One iteration of the division loop: XOR if the low bit is set, then shift right by one
(42_fec_field_encoder.md R130). -/
def golayStep (c : BitVec 12) : BitVec 12 := (if c.getLsbD 0 then c ^^^ golayPoly else c) >>> 1

/-- `n` iterations of the division loop. -/
def golayLoop : Nat → BitVec 12 → BitVec 12
  | 0, c => c
  | n + 1, c => golayLoop n (golayStep c)

/-- `check(d)`: the working value after 12 iterations, below 2^11 (42_fec_field_encoder.md R130, R131). -/
def golayCheck (d : BitVec 12) : BitVec 12 := golayLoop 12 d

/-- `Golay(d)` = `(check(d) << 12) | d`, 23 bits (42_fec_field_encoder.md R130). -/
def golay (d : BitVec 12) : BitVec 23 := ((golayCheck d).setWidth 23 <<< 12) ||| d.setWidth 23

/-- `Parity(w)`: XOR of the three bytes, folded over 4, 2 and 1 positions, the low bit
(42_fec_field_encoder.md R136). -/
def parity (w : BitVec 24) : Bool :=
  let p0 : BitVec 8 := w.extractLsb' 0 8 ^^^ w.extractLsb' 8 8 ^^^ w.extractLsb' 16 8
  let p1 := p0 ^^^ (p0 >>> 4)
  let p2 := p1 ^^^ (p1 >>> 2)
  let p3 := p2 ^^^ (p2 >>> 1)
  p3.getLsbD 0

/-- `d0`: elements 0..11, `v(0)` the most significant (42_fec_field_encoder.md R141). -/
def fieldC0 (v : Ambe49) : BitVec 12 := ofSeq 12 fun i => v.getMsbD i

/-- `d1`: elements 12..23, `v(12)` the most significant (42_fec_field_encoder.md R141). -/
def fieldC1 (v : Ambe49) : BitVec 12 := ofSeq 12 fun i => v.getMsbD (12 + i)

/-- `d2`: elements 24..34, `v(24)` the most significant (42_fec_field_encoder.md R141). -/
def fieldC2 (v : Ambe49) : BitVec 11 := ofSeq 11 fun i => v.getMsbD (24 + i)

/-- `d3`: elements 35..48, `v(35)` the most significant (42_fec_field_encoder.md R141). -/
def fieldC3 (v : Ambe49) : BitVec 14 := ofSeq 14 fun i => v.getMsbD (35 + i)

/-- `f0` = `Parity(cw0) * 2^23 + cw0` with `cw0 = Golay(d0)`: the C0 field word (42_fec_field_encoder.md
R142). -/
def c0FieldWord (d0 : BitVec 12) : BitVec 24 :=
  ((BitVec.ofBool (parity ((golay d0).setWidth 24))).setWidth 24 <<< 23) ||| (golay d0).setWidth 24

/-- The cells of the assembled matrix, row by row (42_fec_field_encoder.md R142 to R145), from the C0
field word `f0`, the C1 codeword `cw1` and the vector. -/
def assembleCell (f0 : BitVec 24) (cw1 : BitVec 23) (v : Ambe49) (r c : Nat) : Bool :=
  match r with
  | 0 => f0.getLsbD (23 - c)
  | 1 => if 1 ≤ c then cw1.getLsbD (23 - c) else false
  | 2 => if 13 ≤ c then v.getMsbD (c + 11) else false
  | 3 => if 10 ≤ c then v.getMsbD (c + 25) else false
  | _ => false

/-- `Assemble(v)` (42_fec_field_encoder.md R147). -/
def assemble (v : Ambe49) : FrameMatrix :=
  ofCells (assembleCell (c0FieldWord (fieldC0 v)) (golay (fieldC1 v)) v)

/-- GOLAY (42_fec_field_encoder.md R138). -/
def execGolay (opnd : Operand) (s : State) : Host.Outcome State Fault Refusal :=
  .next (respond 0x03#8 (resultBits (golay (operandData opnd))) s)

/-- PARITY (42_fec_field_encoder.md R139). -/
def execParity (opnd : Operand) (s : State) : Host.Outcome State Fault Refusal :=
  .next (respond 0x04#8 (resultBits (BitVec.ofBool (parity (operandWord opnd)))) s)

/-- ASSEMBLE (42_fec_field_encoder.md R149). -/
def execAssemble (opnd : Operand) (s : State) : Host.Outcome State Fault Refusal :=
  .next (respond 0x05#8 (assemble (operandVector opnd)) s)

end Sys2Proof.Machine
end

