-- ==== Sys2Proof/Machine/Interleaver.lean ====
section
/-! DEFINITION. The interleaver, its inverse, and the command INTERLEAVE (spec file 44_interleaver.md). -/

namespace Sys2Proof.Machine

open Sys2Proof

/-- The output buffer and the 72-bit cursor j of `Append` (44_interleaver.md R184). -/
structure OutBuf where
  out : List Byte
  j : Nat
deriving DecidableEq, Repr

/-- `Append(bit)`: shift the current byte left by one, OR in the bit, advance the cursor
(44_interleaver.md R184). -/
def OutBuf.append (o : OutBuf) (bit : Bool) : OutBuf where
  out := o.out.modify (o.j / 8) fun x => (x <<< 1) ||| (BitVec.ofBool bit).setWidth 8
  j := o.j + 1

/-- Nine bytes, all 0, the cursor at 0: the start of `Interleave` (44_interleaver.md R184). -/
def OutBuf.start : OutBuf where
  out := List.replicate 9 0#8
  j := 0

/-- `Interleave(PERM, M)`: for pair i in 0..35 append the high bit, then the low bit
(44_interleaver.md R184). -/
def interleave (p : Perm) (M : FrameMatrix) : List Byte :=
  ((List.range 36).foldl
    (fun o i =>
      (o.append (cell M (p.table.hiCell i).1 (p.table.hiCell i).2)).append
        (cell M (p.table.loCell i).1 (p.table.loCell i).2))
    OutBuf.start).out

/-- `Deinterleave(PERM, out)`: stream bit 2i goes to the cell `(rW(i), rX(i))` and stream bit 2i+1 to
`(rY(i), rZ(i))` (44_interleaver.md R187); a cell no pair names is 0. The stream is the 72-bit value `x`,
its bit 0 the most significant. No command computes it. -/
def deinterleave (p : Perm) (x : BitVec 72) : FrameMatrix :=
  ofCells fun r c => if (r, c) ∈ p.table.cells then x.getMsbD (p.table.cells.idxOf (r, c)) else false

/-- INTERLEAVE (44_interleaver.md R189). -/
def execInterleave (opnd : Operand) (s : State) : Host.Outcome State Fault Refusal :=
  .next (respond 0x07#8 (resultBytes (interleave s.perm (operandMatrix opnd))) s)

end Sys2Proof.Machine
end

