-- ==== Sys2Proof/Machine/Scrambler.lean ====
section
/-! DEFINITION. The scrambler: seed, keystream, the XOR into row 1, and the command SCRAMBLE (spec file
43_scrambler.md). The generator is a linear congruential recurrence on natural numbers (00_scope.md R21). -/

namespace Sys2Proof.Machine

open Sys2Proof

/-- `LCG_A` (00_scope.md R8; taken as written, log entry 13). -/
def lcgA : Nat := 173

/-- `LCG_C` (00_scope.md R8; taken as written, log entry 13). -/
def lcgC : Nat := 13849

/-- `LCG_M` (00_scope.md R8; taken as written, log entry 13). -/
def lcgM : Nat := 65536

/-- The keystream divisor (00_scope.md R8; taken as written, log entry 13). -/
def keyDivisor : Nat := 32768

/-- `Seed(M)`: row 0, columns 12 to 23, column 12 the most significant bit (43_scrambler.md R160). -/
def seed (M : FrameMatrix) : Nat :=
  (List.range' 12 12).foldl (fun s c => 2 * s + (cell M 0 c).toNat) 0

/-- `pr(k)` for seed s: `pr(0) = 16 * s` and `pr(k) = (173 * pr(k-1) + 13849) mod 65536`
(43_scrambler.md R160, R161). -/
def pr (s : Nat) : Nat → Nat
  | 0 => 16 * s
  | k + 1 => (lcgA * pr s k + lcgC) % lcgM

/-- `key(k)` = `pr(k) div 32768`, 0 or 1, used for k in 1..23 (43_scrambler.md R162). -/
def key (s k : Nat) : Nat := pr s k / keyDivisor

/-- `Keystream(s)`: the sequence `key(1), …, key(23)` (43_scrambler.md R162). -/
def keystream (s : Nat) : List Nat := (List.range' 1 23).map (key s)

/-- `Scramble(M)`: `M'[1][23-k] = M[1][23-k] ^ key(k)` for k in 1..23, every other cell unchanged
(43_scrambler.md R163); the column is c = 23-k, so k = 23-c for c in 0..22. -/
def scramble (M : FrameMatrix) : FrameMatrix :=
  ofCells fun r c =>
    if r = 1 ∧ c ≤ 22 then cell M r c ^^ decide (key (seed M) (23 - c) = 1) else cell M r c

/-- SCRAMBLE (43_scrambler.md R170). -/
def execScramble (opnd : Operand) (s : State) : Host.Outcome State Fault Refusal :=
  .next (respond 0x06#8 (scramble (operandMatrix opnd)) s)

end Sys2Proof.Machine
end

