-- ==== Sys2Proof/Machine/Unpacker.lean ====
section
/-! DEFINITION. The Bit Unpacker and the command UNPACK (spec file 41_unpacker.md). -/

namespace Sys2Proof.Machine

open Sys2Proof

/-- `Unpack(b)`: `v(i)` = `b(i div 8)[7 - (i mod 8)]` for i in 0..48 (41_unpacker.md R120). -/
def unpack (b : List Byte) : Ambe49 := ofSeq 49 fun i => (b.getD (i / 8) 0#8).getLsbD (7 - i % 8)

/-- UNPACK (41_unpacker.md R123): the length check first (R121), then the vector in RESULT[48:0]. -/
def execUnpack (len : BitVec 8) (opnd : Operand) (s : State) : Host.Outcome State Fault Refusal :=
  if len ≠ 7#8 then .next (raise .invalidInputLength 0x02#8 s)
  else .next (respond 0x02#8 (resultBits (unpack (operandBytes opnd))) s)

end Sys2Proof.Machine
end

