-- ==== Sys2Proof/Machine/Pipeline.lean ====
section
/-! DEFINITION. The whole conversion, its field-partitioned form, and the command ENCODE (spec file
40_encode_pipeline.md). -/

namespace Sys2Proof.Machine

open Sys2Proof

/-- `EncodeFrame(PERM, b)` = `Interleave(PERM, Scramble(Assemble(Unpack(b))))` (40_encode_pipeline.md R100). -/
def encodeFrame (p : Perm) (b : List Byte) : List Byte := interleave p (scramble (assemble (unpack b)))

/-- ENCODE (40_encode_pipeline.md R102): the length check first, then the nine bytes in RESULT[71:0]. -/
def execEncode (len : BitVec 8) (opnd : Operand) (s : State) : Host.Outcome State Fault Refusal :=
  if len ≠ 7#8 then .next (raise .invalidInputLength 0x01#8 s)
  else .next (respond 0x01#8 (resultBytes (encodeFrame s.perm (operandBytes opnd))) s)

/-- What the five lanes compute, each from its own field of the vector (40_encode_pipeline.md R105). -/
structure Lanes where
  /-- lane C0: row 0 -/
  row0 : BitVec 24
  /-- lane C1: row 1 before scrambling, the pad at column 0 -/
  row1 : BitVec 24
  /-- lane C2: row 2 -/
  row2 : BitVec 24
  /-- lane C3: row 3 -/
  row3 : BitVec 24
  /-- lane K: `key(k)` at bit k, for k in 1..23 (43_scrambler.md R164) -/
  keys : BitVec 24
deriving DecidableEq, Repr

/-- The lanes run side by side: lane K takes its seed from `v(0..11)`, not from the encoded row
(40_encode_pipeline.md R105, R107). -/
def lanes (v : Ambe49) : Lanes where
  row0 := c0FieldWord (fieldC0 v)
  row1 := (golay (fieldC1 v)).setWidth 24
  row2 := (fieldC2 v).setWidth 24
  row3 := (fieldC3 v).setWidth 24
  keys := ofSeq 24 fun c => decide (c ≤ 22) && decide (key (fieldC0 v).toNat (23 - c) = 1)

/-- The scrambled matrix of the parallel organisation: lane K's XOR is applied to lane C1's codeword
afterwards (40_encode_pipeline.md R107). -/
def Lanes.matrix (l : Lanes) : FrameMatrix := l.row0 ++ (l.row1 ^^^ l.keys) ++ l.row2 ++ l.row3

end Sys2Proof.Machine
end

