-- ==== Sys2Proof/Machine/Dispatch.lean ====
section
/-! DEFINITION. One arm per command, each one call of its meaning. -/

namespace Sys2Proof.Machine

open Sys2Proof

def exec (i : Instr) (s : State) : Host.Outcome State Fault Refusal :=
  match i with
  | .encode len opnd => Sys2Proof.Machine.execEncode len opnd s
  | .unpack len opnd => Sys2Proof.Machine.execUnpack len opnd s
  | .golay opnd => Sys2Proof.Machine.execGolay opnd s
  | .parity opnd => Sys2Proof.Machine.execParity opnd s
  | .assemble opnd => Sys2Proof.Machine.execAssemble opnd s
  | .scramble opnd => Sys2Proof.Machine.execScramble opnd s
  | .interleave opnd => Sys2Proof.Machine.execInterleave opnd s

end Sys2Proof.Machine
end

