-- ==== Sys2Proof/Machine/Step.lean ====
section
/-! DEFINITION. One step: the host's next action takes effect whole (10_state.md R30, 20_memory.md R60). -/

namespace Sys2Proof.Machine

open Sys2Proof

/-- A write of CMD executes exactly one command: the word is decoded, an illegal word is answered with
ILLEGAL_COMMAND, a legal one runs (10_state.md R34; 30_encoding.md R78, R79; 60_exceptions.md R206). -/
def runCommand (w : CmdWord) (s : State) : Host.Outcome State Fault Refusal :=
  match decode w with
  | .error _ => .next (answerIllegal w s)
  | .ok i => exec i s

/-- One step of the machine: the next host action is performed. With no action pending nothing happens
(DESIGN CHOICE, log entry 3). -/
def step (s : State) : Host.Outcome State Fault Refusal :=
  match takeAction s with
  | none => .next s
  | some (.writeCmd w, s') => runCommand w s'
  | some (.readResp, s') => .next (readResp s')
  | some (.reset, s') => .next (applyReset s')

/-- `s` with a command word as the next thing the host writes to CMD: the low `nbits` bits of `w`, the
bits above them 0. The CORE fetches nothing (10_state.md R33): a program is the sequence of the host's CMD
writes, and it enters the machine from outside (log entry 2). -/
def State.withFetchWord (s : State) (nbits w : Nat) : State :=
  { s with host := .writeCmd (BitVec.ofNat 128 (w % 2 ^ nbits)) :: s.host }

end Sys2Proof.Machine
end

