-- ==== Sys2Proof/Machine/Assembler.lean ====
section
/-! DEFINITION. The assembler of 30_encoding.md R83 and R84: from a source line to the word the host writes
to CMD. What R83's words leave open about the text (white space, letter case, `_` in a number, blank lines)
is fixed in log entry 10. -/

namespace Sys2Proof.Machine

open Sys2Proof

/-- The word of a source line whose operands fit: LEN is 0 and RSVD is 0 in every form except `.word`, and
the pseudo-instructions have LEN = 7 (30_encoding.md R83, R84). -/
def asmWord : AsmLine → CmdWord
  | .encode len bytes => encode (.encode (BitVec.ofNat 8 len) (BitVec.ofNat 96 bytes))
  | .encodeSeven bytes => encode (.encode 7#8 (BitVec.ofNat 96 bytes))
  | .unpack len bytes => encode (.unpack (BitVec.ofNat 8 len) (BitVec.ofNat 96 bytes))
  | .unpackSeven bytes => encode (.unpack 7#8 (BitVec.ofNat 96 bytes))
  | .golay d => encode (.golay (BitVec.ofNat 96 d))
  | .parity w => encode (.parity (BitVec.ofNat 96 w))
  | .assemble v => encode (.assemble (BitVec.ofNat 96 v))
  | .scramble m => encode (.scramble (BitVec.ofNat 96 m))
  | .interleave m => encode (.interleave (BitVec.ofNat 96 m))
  | .word x => BitVec.ofNat 128 x

/-- "An operand too large for its field is an assembly error, not a wider command: the assembler refuses
it" (30_encoding.md R83). -/
def asmLine (l : AsmLine) : Option CmdWord := if l.wf then some (asmWord l) else none

/-- White space between the words of a line. -/
def isBlank (c : Char) : Bool := c == ' ' || c == '\t' || c == '\r' || c == '\n'

/-- A text without the white space around it. -/
def trimBlanks (t : List Char) : List Char := ((t.dropWhile isBlank).reverse.dropWhile isBlank).reverse

/-- The value of one digit in base 10 or 16. -/
def digitOf (base : Nat) (c : Char) : Option Nat :=
  let n := c.toNat
  let d := if 48 ≤ n ∧ n ≤ 57 then n - 48 else if 65 ≤ n ∧ n ≤ 70 then n - 55
    else if 97 ≤ n ∧ n ≤ 102 then n - 87 else base
  if d < base then some d else none

/-- The value of a run of digits, most significant first, from the value `x` read so far. -/
def digitsFrom (base : Nat) : Nat → List Char → Option Nat
  | x, [] => some x
  | x, c :: cs =>
    match digitOf base c with
    | none => none
    | some d => digitsFrom base (base * x + d) cs

/-- The value of a run of digits. DESIGN CHOICE (log entry 10): every `_` is skipped wherever it stands, at the
start, at the end or repeated too (`_5`, `0x_5`, `5_`, `1__2`), where the spec shows it only between the digits of
one `.word` operand (R85); a run with no digit (empty, or underscores alone) is no number. -/
def readDigits (base : Nat) (t : List Char) : Option Nat :=
  match t.filter (· ≠ '_') with
  | [] => none
  | ds => digitsFrom base 0 ds

/-- A number, decimal or hexadecimal with `0x` (30_encoding.md R83). The `.word` line of R85
has `_` between digits; that every number may hold it is the model's choice (DESIGN CHOICE, log entry 10). -/
def readNumber : List Char → Option Nat
  | '0' :: 'x' :: ds => readDigits 16 ds
  | ds => readDigits 10 ds

/-- The parts of a text between its commas, each without the white space around it. -/
def splitCommas : List Char → List (List Char)
  | [] => [[]]
  | ',' :: cs => [] :: splitCommas cs
  | c :: cs =>
    match splitCommas cs with
    | [] => [[c]]
    | p :: ps => (c :: p) :: ps

/-- The operands of a line: numbers separated by commas; none of them may be missing. -/
def readOperands (t : List Char) : Option (List Nat) := (splitCommas t).mapM fun p => readNumber (trimBlanks p)

/-- The source line with a given mnemonic and operands (30_encoding.md R83, R84). -/
def lineOf (mnemonic : List Char) (ops : List Nat) : Option AsmLine :=
  if mnemonic = ['E', 'N', 'C', 'O', 'D', 'E'] then
    match ops with
    | [len, bytes] => some (.encode len bytes)
    | [bytes] => some (.encodeSeven bytes)
    | _ => none
  else if mnemonic = ['U', 'N', 'P', 'A', 'C', 'K'] then
    match ops with
    | [len, bytes] => some (.unpack len bytes)
    | [bytes] => some (.unpackSeven bytes)
    | _ => none
  else
    match ops with
    | [x] =>
      if mnemonic = ['G', 'O', 'L', 'A', 'Y'] then some (.golay x)
      else if mnemonic = ['P', 'A', 'R', 'I', 'T', 'Y'] then some (.parity x)
      else if mnemonic = ['A', 'S', 'S', 'E', 'M', 'B', 'L', 'E'] then some (.assemble x)
      else if mnemonic = ['S', 'C', 'R', 'A', 'M', 'B', 'L', 'E'] then some (.scramble x)
      else if mnemonic = ['I', 'N', 'T', 'E', 'R', 'L', 'E', 'A', 'V', 'E'] then some (.interleave x)
      else if mnemonic = ['.', 'w', 'o', 'r', 'd'] then some (.word x)
      else none
    | _ => none

/-- What one line of source text is. -/
inductive SourceLine where
  /-- nothing but white space and a comment -/
  | empty
  /-- one command or `.word` -/
  | line (l : AsmLine)
  /-- no form of R83 or R84: an assembly error -/
  | error
deriving DecidableEq, Repr

/-- One line of source: a mnemonic and its operands, `;` starting a comment (30_encoding.md R83). -/
def parseLine (text : List Char) : SourceLine :=
  let t := trimBlanks (text.takeWhile (· ≠ ';'))
  if t = [] then .empty
  else
    match readOperands (t.dropWhile fun c => !isBlank c) with
    | none => .error
    | some ops =>
      match lineOf (t.takeWhile fun c => !isBlank c) ops with
      | none => .error
      | some l => .line l

/-- The words of a program, one line of source after another; none if any line is an assembly error
(30_encoding.md R83). That one refused line refuses the whole program is the model's choice (DESIGN CHOICE, log
entry 10). -/
def assembleProgram : List (List Char) → Option (List CmdWord)
  | [] => some []
  | t :: ts =>
    match parseLine t with
    | .empty => assembleProgram ts
    | .error => none
    | .line l =>
      match asmLine l, assembleProgram ts with
      | some w, some ws => some (w :: ws)
      | _, _ => none

end Sys2Proof.Machine
end

