-- ==== Sys2Proof/Machine/Platform.lean ====
section
/-! DEFINITION. A platform with several CORE instances (00_scope.md R11, 10_state.md R44, 60_exceptions.md
R215). `N_INSTANCES` is OPEN: it is the length of the list. -/

namespace Sys2Proof.Machine

open Sys2Proof

/-- The instances of a platform, each with its own RESP and its own commands (60_exceptions.md R215). -/
structure Platform where
  units : List State
deriving DecidableEq, Repr

/-- All instances hold the same read-only PERM, the table `p` (60_exceptions.md R215). -/
def Platform.shares (p : Perm) (P : Platform) : Prop := ∀ s ∈ P.units, s.perm = p

/-- "start together from reset": n instances, each as reset leaves it (60_exceptions.md R215). -/
def Platform.reset (n : Nat) : Platform where
  units := List.replicate n State.reset

/-- Instance k takes one step of its own; no other instance takes part (60_exceptions.md R215). A number that
names no instance changes nothing (DESIGN CHOICE, log entry 11). Where the step is a reset from the instance's
own action list, it resets that instance alone: R215 says only that the instances start together from reset, and
whether a running platform can reset one of them without the others is the model's choice (DESIGN CHOICE, log
entry 16). -/
def Platform.stepAt (k : Nat) (P : Platform) : Host.Outcome Platform Fault Refusal :=
  match P.units[k]? with
  | none => .next P
  | some s =>
    match step s with
    | .next s' => .next { units := P.units.set k s' }
    | .fault r => .fault r
    | .refused r => .refused r

end Sys2Proof.Machine
end

