-- ==== Sys2Proof/Safety.lean ====
section
/-! DEFINITION. The terms in which claims about the whole machine are stated: which responses are legal,
the invariant of the state, and what a run may not end in. -/

namespace Sys2Proof.Machine

open Sys2Proof

/-- What RESULT may hold when the command with opcode `opc` ended with STATUS OK: every bit outside the
command's range is 0 (30_encoding.md R82); a GOLAY result is a codeword (42_fec_field_encoder.md R131); the
unpopulated cells of an assembled matrix are 0 (42_fec_field_encoder.md R146). -/
def okResult (opc : Nat) (result : BitVec 96) : Bool :=
  match opc with
  | 1 => decide (result.toNat < 2 ^ 72)
  | 2 => decide (result.toNat < 2 ^ 49)
  | 3 => decide (result = resultBits (golay (result.extractLsb' 0 12)))
  | 4 => decide (result.toNat < 2)
  | 5 => (List.range 96).all fun n => populated (n / 24) (n % 24) || !(cell result (n / 24) (n % 24))
  | 6 => true
  | 7 => decide (result.toNat < 2 ^ 72)
  | _ => false

/-- The values RESP can hold: the outcome of a command or the reset value (10_state.md R35, R41; 30_encoding.md
R76, R82; 60_exceptions.md R200 to R204). -/
def Resp.legal (r : Resp) : Bool :=
  match r.status.toNat with
  | 0x00 => okResult r.ropc.toNat r.result
  | 0x01 => (r.ropc.toNat == 1 || r.ropc.toNat == 2) && r.result == 0#96
  | 0x02 => r.result == 0#96
  | 0xFF => r == Resp.reset
  | _ => false

/-- The fields of a 128-bit word read from RESP (10_state.md R35). -/
def Resp.ofWord (w : RespWord) : Resp where
  status := w.extractLsb' 120 8
  ropc := w.extractLsb' 112 8
  result := w.extractLsb' 0 96

/-- A word a host may read from RESP: RZERO is 0 and the fields are legal. -/
def legalRead (w : RespWord) : Bool := w.extractLsb' 96 16 == 0#16 && (Resp.ofWord w).legal

/-- The invariant: RESP is legal, and so is every word a host has read. -/
def State.Inv (s : State) : Prop := s.resp.legal = true ∧ ∀ w ∈ s.seen, legalRead w = true

/-- `n` steps, all of which must give a next state: none if a step faults or is refused. -/
def runFor : Nat → State → Option State
  | 0, s => some s
  | n + 1, s =>
    match step s with
    | .next s' => runFor n s'
    | .fault _ => none
    | .refused _ => none

/-- The states a machine with some PERM reaches from reset, whatever the host does: it may place any
action at any time (20_memory.md R62, 70_reset_and_hazards.md R230). -/
inductive Reachable : State → Prop where
  /-- right after reset, with any well-formed PERM (70_reset_and_hazards.md R233) -/
  | start (p : Perm) : Reachable { State.reset with perm := p }
  /-- the host decides on one more action -/
  | place (s : State) (a : HostAction) : Reachable s → Reachable { s with host := s.host ++ [a] }
  /-- the machine takes a step -/
  | step (s s' : State) : Reachable s → step s = .next s' → Reachable s'

end Sys2Proof.Machine
end

