-- ==== Sys2Proof/Certificates/Slice0/Obligations.lean ====
section
/-! DEFINITION. The statements for the provers, each from the rules of spec/ its docstring cites. The
functions under `Sys2Proof.Claims` are the yardsticks the statements measure the machine with: they are
written from the rules' own closed forms, not from the machine's definitions. -/

namespace Sys2Proof.Claims

open Sys2Proof Sys2Proof.Machine

/-- The table T(j), j in 0..11 (42_fec_field_encoder.md R133). -/
def golayT : List Nat :=
  [0x2E3, 0x5C6, 0x16F, 0x2DE, 0x5BC, 0x19B, 0x336, 0x66C, 0x63B, 0x695, 0x7C9, 0x571]

/-- The XOR of T(j) over the set bits j of d (42_fec_field_encoder.md R133). -/
def checkByTable (d : BitVec 12) : Nat :=
  (List.range 12).foldl (fun x j => if d.getLsbD j then x ^^^ golayT.getD j 0 else x) 0

/-- The XOR of all bits of a value (42_fec_field_encoder.md R137). -/
def xorBits {n : Nat} (w : BitVec n) : Bool := (List.range n).foldl (fun p i => p ^^ w.getLsbD i) false

/-- The number of 1 bits of a value. -/
def ones {n : Nat} (w : BitVec n) : Nat := ((List.range n).filter fun i => w.getLsbD i).length

/-- The number of bits in which two values differ. -/
def distance {n : Nat} (a b : BitVec n) : Nat := ones (a ^^^ b)

/-- `K(s)`: the sum over k in 1..23 of `key(k) * 2^k` (43_scrambler.md R164). -/
def keySum (s : Nat) : Nat := ((List.range' 1 23).map fun k => key s k * 2 ^ k).sum

/-- The number of 1 bits of a matrix over the populated set P (44_interleaver.md R187). -/
def onesOverP (M : FrameMatrix) : Nat :=
  ((List.range 96).filter fun n => populated (n / 24) (n % 24) && cell M (n / 24) (n % 24)).length

/-- Two matrices hold the same bit in every populated cell. -/
def agreeOnP (M N : FrameMatrix) : Prop := ∀ r c, populated r c = true → cell M r c = cell N r c

/-- The 72-bit output stream of nine bytes, its bit 0 the most significant bit of byte 0
(20_memory.md R51, R54). -/
def streamOf (out : List Byte) : BitVec 72 := (resultBytes out).setWidth 72

/-- OPC, LEN and RSVD of a word, by division (30_encoding.md R70). -/
def opcNat (w : CmdWord) : Nat := w.toNat / 2 ^ 120
def lenNat (w : CmdWord) : Nat := w.toNat / 2 ^ 112 % 2 ^ 8
def rsvdNat (w : CmdWord) : Nat := w.toNat / 2 ^ 96 % 2 ^ 16

/-- The illegal words (30_encoding.md R79). -/
def listedIllegal (w : CmdWord) : Prop :=
  (opcNat w = 0 ∨ 8 ≤ opcNat w) ∨ rsvdNat w ≠ 0 ∨ (3 ≤ opcNat w ∧ opcNat w ≤ 7 ∧ lenNat w ≠ 0)

/-- What 30_encoding.md R83 says of one source line: if its operands fit, the word written to CMD is `w`, which
decodes to the command `i`; if one is too large, the assembler refuses the line. -/
def assemblesTo (l : AsmLine) (fits : Prop) (w : Nat) (i : Instr) : Prop :=
  (fits → asmLine l = some (BitVec.ofNat 128 w) ∧ decode (BitVec.ofNat 128 w) = .ok i) ∧
    (¬ fits → asmLine l = none)

end Sys2Proof.Claims

open Sys2Proof Sys2Proof.Machine Sys2Proof.Claims

/-! ### Encoding -/

/-- Decoding the word of any command gives it back: no bit of an encoding is dropped
(derived from 30_encoding.md R70, R77, R78). -/
def Obligations.EncodeThenDecodeIsIdentity : Prop := ∀ i : Instr, decode (encode i) = .ok i

/-- Every legal word is the word of exactly the command it decodes to (derived from 30_encoding.md R70, R78). -/
def Obligations.DecodedWordReencodes : Prop := ∀ (w : CmdWord) (i : Instr), decode w = .ok i → encode i = w

/-- 30_encoding.md R70: the formula of the command word, and the four fields read back from it. -/
def Obligations.CommandWordIsTheFieldSum : Prop :=
  ∀ (opc len : BitVec 8) (rsvd : BitVec 16) (opnd : Operand),
    (mkCmd opc len rsvd opnd).toNat =
        opc.toNat * 2 ^ 120 + len.toNat * 2 ^ 112 + rsvd.toNat * 2 ^ 96 + opnd.toNat ∧
      opcField (mkCmd opc len rsvd opnd) = opc ∧ lenField (mkCmd opc len rsvd opnd) = len ∧
      rsvdField (mkCmd opc len rsvd opnd) = rsvd ∧ opndField (mkCmd opc len rsvd opnd) = opnd

/-- The words of 30_encoding.md R85, written out there, decode to the commands they stand for. -/
def Obligations.SpecExampleWordsDecode : Prop :=
  decode 0x01070000_00000000_00123456_789ABCDE#128 = .ok (.encode 7#8 0x123456789ABCDE#96) ∧
    decode 0x01060000_00000000_00123456_789ABCDE#128 = .ok (.encode 6#8 0x123456789ABCDE#96) ∧
    decode 0x02070000_00000000_00FFFFFF_FFFFFFFF#128 = .ok (.unpack 7#8 0xFFFFFFFFFFFFFF#96) ∧
    decode 0x03000000_00000000_00000000_00000123#128 = .ok (.golay 0x123#96) ∧
    decode 0x04000000_00000000_00000000_00085123#128 = .ok (.parity 0x085123#96) ∧
    decode 0x05000000_00000000_00002468_ACF13579#128 = .ok (.assemble 0x02468ACF13579#96) ∧
    decode 0x06000000_8851235E_A4560003_C4003579#128 = .ok (.scramble 0x8851235EA4560003C4003579#96) ∧
    decode 0x07000000_885123DD_90AC0003_C4003579#128 = .ok (.interleave 0x885123DD90AC0003C4003579#96) ∧
    decode 0x08000000_00000000_00000000_00000000#128 = .error .reservedOpcode

/-- 30_encoding.md R79: the words it lists, and no other, are illegal, and each is answered with
ILLEGAL_COMMAND, the word's OPC in ROPC and RESULT 0 (60_exceptions.md R202); nothing but RESP changes. -/
def Obligations.IllegalWordsAreExactlyThoseListed : Prop :=
  ∀ (s : State) (w : CmdWord) (rest : List HostAction), s.host = .writeCmd w :: rest →
    (listedIllegal w → ∃ x : BitVec 8, x.toNat = opcNat w ∧
      step s = .next { s with host := rest, resp := { status := 0x02#8, ropc := x, result := 0#96 } }) ∧
    (¬ listedIllegal w → ∃ t, step s = .next t ∧ t.resp.status ≠ 0x02#8)

/-! ### A step -/

/-- When the word the host writes decodes to a command, the step is that command's meaning with the write
taken off the host's list (derived from 10_state.md R34, 20_memory.md R60). -/
def Obligations.StepRunsTheDecodedCommand : Prop :=
  ∀ (s : State) (w : CmdWord) (rest : List HostAction) (i : Instr),
    s.host = .writeCmd w :: rest → decode w = .ok i → step s = exec i { s with host := rest }

/-- 60_exceptions.md R206: decoding is checked before the length, and the first check that fails decides
the one STATUS reported. -/
def Obligations.DecodingIsCheckedBeforeLength : Prop :=
  ∀ (s : State) (opc len : BitVec 8) (rsvd : BitVec 16) (opnd : Operand) (rest : List HostAction),
    s.host = .writeCmd (mkCmd opc len rsvd opnd) :: rest →
    ((rsvd ≠ 0#16 ∨ opc.toNat = 0 ∨ 8 ≤ opc.toNat ∨ (3 ≤ opc.toNat ∧ len ≠ 0#8)) →
      step s = .next { s with host := rest, resp := { status := 0x02#8, ropc := opc, result := 0#96 } }) ∧
    (rsvd = 0#16 → (opc = 0x01#8 ∨ opc = 0x02#8) → len ≠ 7#8 →
      step s = .next { s with host := rest, resp := { status := 0x01#8, ropc := opc, result := 0#96 } }) ∧
    (rsvd = 0#16 → (opc = 0x01#8 ∨ opc = 0x02#8) → len = 7#8 →
      ∃ x, step s = .next { s with host := rest, resp := { status := 0x00#8, ropc := opc, result := x } }) ∧
    (rsvd = 0#16 → 3 ≤ opc.toNat → opc.toNat ≤ 7 → len = 0#8 →
      ∃ x, step s = .next { s with host := rest, resp := { status := 0x00#8, ropc := opc, result := x } })

/-- 60_exceptions.md R216: a step never faults, is never refused and never gets stuck; the only refusal is
of an ill-formed PERM, at configuration. -/
def Obligations.EveryStepGivesANextState : Prop :=
  (∀ s : State, ∃ t, step s = .next t) ∧
    (∀ t : PermTable, t.wf = false → State.configure t = .refused .illFormedPerm) ∧
    (∀ t : PermTable, t.wf = true →
      ∃ s, State.configure t = .next s ∧ s.perm.table = t ∧ s.resp = State.reset.resp)

/-- The model's own choice (log entry 3): with no host action pending a step changes nothing. -/
def Obligations.IdleMachineStaysAsItIs : Prop := ∀ s : State, s.host = [] → step s = .next s

/-- 10_state.md R41: the reset value of RESP, field by field and as a 128-bit value. -/
def Obligations.ResetGivesNoResult : Prop :=
  State.reset.resp.status = 0xFF#8 ∧ State.reset.resp.ropc = 0x00#8 ∧ State.reset.resp.result = 0#96 ∧
    State.reset.resp.word = 0xFF000000_00000000_00000000_00000000#128

/-- Reset gives RESP its reset value and leaves PERM unchanged (derived from 70_reset_and_hazards.md R230,
10_state.md R42). That the host's later actions and its past reads stay is the model's choice (DESIGN CHOICE, log
entry 9): no rule says it. -/
def Obligations.ResetActionResetsRespOnly : Prop :=
  ∀ (s : State) (rest : List HostAction), s.host = .reset :: rest →
    step s = .next { s with host := rest, resp := { status := 0xFF#8, ropc := 0x00#8, result := 0#96 } }

/-- A RESP read returns the word last written and has no side effect on RESP or PERM (derived from
10_state.md R35; that the word is kept in `seen` is the model's choice, log entry 4). -/
def Obligations.RespReadHasNoSideEffect : Prop :=
  ∀ (s : State) (rest : List HostAction), s.host = .readResp :: rest →
    step s = .next { s with host := rest, seen := s.seen ++ [s.resp.word] }

/-- A read right after a write returns that command's response (derived from 20_memory.md R60,
70_reset_and_hazards.md R236; `seen` is the model's own field, log entry 4). -/
def Obligations.ReadAfterWriteSeesThatResponse : Prop :=
  ∀ (s : State) (w : CmdWord) (rest : List HostAction), s.host = .writeCmd w :: .readResp :: rest →
    ∃ t u, step s = .next t ∧ step t = .next u ∧ t.resp.ropc = opcField w ∧ u.resp = t.resp ∧
      u.seen = s.seen ++ [t.resp.word] ∧ u.host = rest

/-- 30_encoding.md R75: every command ends by writing `mkResp(status, opc, result)`, whose 128-bit value is
the formula's, bits 111:96 being 0. -/
def Obligations.EveryCommandWritesMkResp : Prop :=
  (∀ (i : Instr) (s : State), ∃ st x, exec i s = .next { s with resp := mkResp st i.opc x }) ∧
    ∀ (st o : BitVec 8) (x : BitVec 96),
      (mkResp st o x).word.toNat = st.toNat * 2 ^ 120 + o.toNat * 2 ^ 112 + x.toNat ∧
        (mkResp st o x).word.extractLsb' 96 16 = 0#16

/-- A command word changes nothing but RESP: PERM, the pending actions and what was read stay (derived from
60_exceptions.md R209 and 10_state.md R31, over all seven commands). -/
def Obligations.CommandsChangeOnlyResp : Prop :=
  ∀ (i : Instr) (s t : State), exec i s = .next t → t.perm = s.perm ∧ t.host = s.host ∧ t.seen = s.seen

/-- 20_memory.md R59: a CMD write overwrites RESP and has no other side effect, the response is a function of
the command word and PERM alone, so the same word gives the same RESP whatever came before, and a RESP read
has no side effect on RESP or PERM. -/
def Obligations.ResponseDependsOnWordAndPermOnly : Prop :=
  (∃ f : Perm → CmdWord → Resp, ∀ (s : State) (w : CmdWord) (rest : List HostAction),
    s.host = .writeCmd w :: rest → step s = .next { s with host := rest, resp := f s.perm w }) ∧
    ∀ (s : State) (rest : List HostAction), s.host = .readResp :: rest →
      ∃ t, step s = .next t ∧ t.resp = s.resp ∧ t.perm = s.perm

/-- 30_encoding.md R74, R81: the operand bits a command does not read never change its effect and never
make a word illegal. Of ENCODE and UNPACK the low 7 bits are unread too (41_unpacker.md R122), of
INTERLEAVE the unpopulated cells (44_interleaver.md R188). -/
def Obligations.UnreadOperandBitsAreIgnored : Prop :=
  (∀ (s : State) (len : BitVec 8) (a b : Operand), a.extractLsb' 7 49 = b.extractLsb' 7 49 →
    exec (.encode len a) s = exec (.encode len b) s ∧ exec (.unpack len a) s = exec (.unpack len b) s) ∧
  (∀ (s : State) (a b : Operand), a.extractLsb' 0 12 = b.extractLsb' 0 12 →
    exec (.golay a) s = exec (.golay b) s) ∧
  (∀ (s : State) (a b : Operand), a.extractLsb' 0 24 = b.extractLsb' 0 24 →
    exec (.parity a) s = exec (.parity b) s) ∧
  (∀ (s : State) (a b : Operand), a.extractLsb' 0 49 = b.extractLsb' 0 49 →
    exec (.assemble a) s = exec (.assemble b) s) ∧
  (∀ (s : State) (a b : Operand), agreeOnP a b → exec (.interleave a) s = exec (.interleave b) s) ∧
  (∀ (opc len : BitVec 8) (rsvd : BitVec 16) (a b : Operand),
    (∃ e, decode (mkCmd opc len rsvd a) = .error e) → ∃ e, decode (mkCmd opc len rsvd b) = .error e)

/-! ### The seven commands -/

/-- 41_unpacker.md R124: on STATUS OK, UNPACK's RESULT[48:0] is OPND[55:7]; the rest of RESULT is 0, and
nothing but RESP changes. -/
def Obligations.UnpackIsShiftBySeven : Prop :=
  ∀ (s : State) (opnd : Operand),
    exec (.unpack 7#8 opnd) s =
      .next { s with resp := { status := 0x00#8, ropc := 0x02#8, result := (opnd.extractLsb' 7 49).setWidth 96 } }

/-- 41_unpacker.md R120: element i of the vector is bit `7 - (i mod 8)` of byte `i div 8`. -/
def Obligations.UnpackTakesBytesMsbFirst : Prop :=
  ∀ (b : List Byte) (i : Nat), b.length = 7 → i < 49 →
    (unpack b).getMsbD i = (b.getD (i / 8) 0#8).getLsbD (7 - i % 8)

/-- 60_exceptions.md R201: ENCODE and UNPACK with LEN != 7 report INVALID_INPUT_LENGTH with RESULT 0 and the
command's OPC; no other command word can. -/
def Obligations.OnlyWrongLengthGivesLengthStatus : Prop :=
  (∀ (s : State) (len : BitVec 8) (opnd : Operand), len ≠ 7#8 →
    exec (.encode len opnd) s =
        .next { s with resp := { status := 0x01#8, ropc := 0x01#8, result := 0#96 } } ∧
      exec (.unpack len opnd) s =
        .next { s with resp := { status := 0x01#8, ropc := 0x02#8, result := 0#96 } }) ∧
  ∀ (s t : State) (i : Instr), exec i s = .next t → t.resp.status = 0x01#8 →
    (i.opc = 0x01#8 ∨ i.opc = 0x02#8) ∧ i.len ≠ 7#8

/-- 42_fec_field_encoder.md R133: `Golay` is linear over GF(2), and `check(d)` is the XOR of the table's T(j)
over the set bits of d, where T(j) = check(2^j). -/
def Obligations.GolayIsLinear : Prop :=
  (∀ a b : BitVec 12, golay (a ^^^ b) = golay a ^^^ golay b) ∧
    (∀ d : BitVec 12, (golayCheck d).toNat = checkByTable d) ∧
    ∀ j, j < 12 → golayT.getD j 0 = (golayCheck (BitVec.ofNat 12 (2 ^ j))).toNat

/-- 42_fec_field_encoder.md R131: the code is systematic: the data in the low 12 bits, the 11 check bits
above. -/
def Obligations.GolayIsSystematic : Prop :=
  ∀ d : BitVec 12, (golay d).extractLsb' 0 12 = d ∧
    (golay d).extractLsb' 12 11 = (golayCheck d).setWidth 11 ∧ (golayCheck d).toNat < 2 ^ 11 ∧
    (golay d).toNat < 2 ^ 23

/-- GOLAY writes the codeword of OPND[11:0], its check bits the XOR of the table T, and changes nothing but
RESP (derived from 42_fec_field_encoder.md R133, R138). -/
def Obligations.GolayCommandWritesCodeword : Prop :=
  ∀ (s : State) (opnd : Operand),
    exec (.golay opnd) s =
      .next { s with resp := { status := 0x00#8, ropc := 0x03#8,
                               result := BitVec.ofNat 96 (checkByTable (opnd.extractLsb' 0 12) * 2 ^ 12 +
                                 (opnd.extractLsb' 0 12).toNat) } }

/-- Codewords of different data differ in at least 7 bits, and the 24-bit words with the parity bit above in at
least 8 (derived from 42_fec_field_encoder.md R134). -/
def Obligations.GolayCodewordsKeepTheirDistance : Prop :=
  ∀ d e : BitVec 12, d ≠ e →
    7 ≤ distance (golay d) (golay e) ∧ 8 ≤ distance (c0FieldWord d) (c0FieldWord e)

/-- The code is perfect: every 23-bit word lies within 3 bits of exactly one codeword, so up to 3 bit errors
leave the data recoverable (derived from 42_fec_field_encoder.md R134). -/
def Obligations.GolayCodeIsPerfect : Prop :=
  ∀ w : BitVec 23, ∃ d : BitVec 12, distance w (golay d) ≤ 3 ∧
    ∀ e : BitVec 12, distance w (golay e) ≤ 3 → e = d

/-- 42_fec_field_encoder.md R137: parity is the XOR of all 24 bits; a codeword with its parity above it has
even parity; flipping any one of the 24 bits makes the XOR 1. -/
def Obligations.ParityDetectsEverySingleFlip : Prop :=
  (∀ w : BitVec 24, parity w = xorBits w) ∧
    ∀ cw : BitVec 23,
      xorBits (BitVec.ofBool (parity (cw.setWidth 24)) ++ cw) = false ∧
        ∀ j, j < 24 →
          xorBits ((BitVec.ofBool (parity (cw.setWidth 24)) ++ cw) ^^^ BitVec.ofNat 24 (2 ^ j)) = true

/-- PARITY writes the XOR of the bits of OPND[23:0] into RESULT[0], and changes nothing but RESP (derived from
42_fec_field_encoder.md R137, R139). -/
def Obligations.ParityCommandWritesXorOfAllBits : Prop :=
  ∀ (s : State) (opnd : Operand),
    exec (.parity opnd) s =
      .next { s with resp := { status := 0x00#8, ropc := 0x04#8,
                               result := BitVec.ofNat 96 (xorBits (opnd.extractLsb' 0 24)).toNat } }

/-- 42_fec_field_encoder.md R147, as ASSEMBLE's RESULT: `f0 * 2^72 + cw1 * 2^48 + d2 * 2^24 + d3`, the fields
cut from OPND[48:0], and the four rows; nothing but RESP changes. -/
def Obligations.AssembleIsTheRowSum : Prop :=
  (∀ v : Ambe49,
    rowval (assemble v) 0 = c0FieldWord (v.extractLsb' 37 12) ∧
      rowval (assemble v) 1 = (golay (v.extractLsb' 25 12)).setWidth 24 ∧
      rowval (assemble v) 2 = (v.extractLsb' 14 11).setWidth 24 ∧
      rowval (assemble v) 3 = (v.extractLsb' 0 14).setWidth 24) ∧
  ∀ (s : State) (opnd : Operand),
    exec (.assemble opnd) s =
      .next { s with resp := { status := 0x00#8, ropc := 0x05#8,
                               result := BitVec.ofNat 96
                                 ((c0FieldWord (opnd.extractLsb' 37 12)).toNat * 2 ^ 72 +
                                   (golay (opnd.extractLsb' 25 12)).toNat * 2 ^ 48 +
                                   (opnd.extractLsb' 14 11).toNat * 2 ^ 24 + (opnd.extractLsb' 0 14).toNat) } }

/-- 42_fec_field_encoder.md R150: where every input element lands, and that the other 23 populated cells hold
the parity bit and the check bits (R142, R143). -/
def Obligations.AssemblePlacesEveryElement : Prop :=
  (∀ v : Ambe49,
    cell (assemble v) 0 0 = parity ((golay (v.extractLsb' 37 12)).setWidth 24) ∧
      ∀ j, j ≤ 10 → cell (assemble v) 0 (1 + j) = (golayCheck (v.extractLsb' 37 12)).getLsbD (10 - j) ∧
        cell (assemble v) 1 (1 + j) = (golayCheck (v.extractLsb' 25 12)).getLsbD (10 - j)) ∧
  ∀ (v : Ambe49) (i : Nat),
    (i ≤ 11 → cell (assemble v) 0 (12 + i) = v.getMsbD i) ∧
      (12 ≤ i → i ≤ 23 → cell (assemble v) 1 i = v.getMsbD i) ∧
      (24 ≤ i → i ≤ 34 → cell (assemble v) 2 (i - 11) = v.getMsbD i) ∧
      (35 ≤ i → i ≤ 48 → cell (assemble v) 3 (i - 25) = v.getMsbD i)

/-- 42_fec_field_encoder.md R146: the 24 cells outside P are 0 after assembly, and P has 72 cells. -/
def Obligations.UnpopulatedCellsAreZero : Prop :=
  (∀ (v : Ambe49) (r c : Nat), r < 4 → c < 24 → populated r c = false → cell (assemble v) r c = false) ∧
    ((List.range 96).filter fun n => populated (n / 24) (n % 24)).length = 72

/-- 10_state.md R36: the 96-bit value of a matrix is its four rows, row 0 the most significant, and a row's
column c is its bit 23-c. -/
def Obligations.MatrixIsItsRows : Prop :=
  ∀ M : FrameMatrix,
    M = rowval M 0 ++ rowval M 1 ++ rowval M 2 ++ rowval M 3 ∧
      ∀ r c, r < 4 → c < 24 → (rowval M r).getLsbD (23 - c) = M.getLsbD (95 - (24 * r + c))

/-- 43_scrambler.md R161, R162: the recurrence from the scaled seed, every value 16 bits, and every key bit the
top bit of its value, element k-1 of the keystream of 23. -/
def Obligations.KeyIsTheTopBit : Prop :=
  ∀ s, s < 2 ^ 12 →
    pr s 0 = 16 * s ∧ pr s 0 < 2 ^ 16 ∧ (keystream s).length = 23 ∧
      ∀ k, 1 ≤ k → k ≤ 23 →
        pr s k = (173 * pr s (k - 1) + 13849) % 65536 ∧ pr s k < 2 ^ 16 ∧
          key s k = pr s k / 32768 ∧ key s k = ((BitVec.ofNat 16 (pr s k)).getLsbD 15).toNat ∧
          (keystream s).getD (k - 1) 0 = key s k

/-- 43_scrambler.md R164: scrambling is the XOR of `K(Seed(M))` into row 1, and in the 96-bit value
`M ^ (K(Seed(M)) * 2^48)`; this is SCRAMBLE's RESULT, and nothing but RESP changes. -/
def Obligations.ScrambleIsXorWithKeySum : Prop :=
  (∀ M : FrameMatrix,
    keySum (seed M) < 2 ^ 24 ∧ keySum (seed M) % 2 = 0 ∧
      rowval (scramble M) 1 = rowval M 1 ^^^ BitVec.ofNat 24 (keySum (seed M)) ∧
      rowval (scramble M) 0 = rowval M 0 ∧ rowval (scramble M) 2 = rowval M 2 ∧
      rowval (scramble M) 3 = rowval M 3) ∧
    ∀ (s : State) (opnd : Operand),
      exec (.scramble opnd) s =
        .next { s with resp := { status := 0x00#8, ropc := 0x06#8,
                                 result := opnd ^^^ BitVec.ofNat 96 (keySum (seed opnd) * 2 ^ 48) } }

/-- 43_scrambler.md R166: SCRAMBLE applied to its own RESULT returns the original operand. -/
def Obligations.ScrambleTwiceRestores : Prop :=
  (∀ M : FrameMatrix, scramble (scramble M) = M) ∧
    ∀ (s : State) (opnd : Operand), ∃ t u, exec (.scramble opnd) s = .next t ∧
      exec (.scramble t.resp.result) t = .next u ∧ u.resp.result = opnd

/-- 43_scrambler.md R160: for EVERY matrix the seed is `rowval(M,0)[11:0]`, bits 83:72 of the 96-bit value,
and the LCG starts from 16 times it, below 65536. R167: in the pipeline the seed is the C0 data value, so the
keystream depends on `v(0..11)` alone. -/
def Obligations.SeedIsTheC0Data : Prop :=
  (∀ M : FrameMatrix,
    seed M = (M.extractLsb' 72 12).toNat ∧ seed M = ((rowval M 0).extractLsb' 0 12).toNat ∧
      pr (seed M) 0 = 16 * (M.extractLsb' 72 12).toNat ∧ pr (seed M) 0 < 65536) ∧
  (∀ v : Ambe49, seed (assemble v) = (v.extractLsb' 37 12).toNat) ∧
    ∀ v w : Ambe49, (∀ i, i ≤ 11 → v.getMsbD i = w.getMsbD i) →
      keystream (seed (assemble v)) = keystream (seed (assemble w))

/-- 43_scrambler.md R168: no keystream is blank: 4 to 19 ones for every seed, all 4096 distinct, and the one
of seed 0 as listed. -/
def Obligations.KeystreamsAreNeverBlank : Prop :=
  (∀ s, s < 4096 → 4 ≤ (keystream s).sum ∧ (keystream s).sum ≤ 19) ∧
    (∀ s t, s < 4096 → t < 4096 → keystream s = keystream t → s = t) ∧
    keystream 0 = [0, 1, 0, 0, 0, 0, 1, 0, 1, 1, 0, 0, 1, 1, 0, 0, 0, 1, 0, 0, 0, 1, 1]

/-- 43_scrambler.md R169: the keystream of `s ^ 0x800` is the complement of the keystream of s. -/
def Obligations.KeystreamComplement : Prop :=
  ∀ s, s < 4096 → keystream (s ^^^ 0x800) = (keystream s).map fun b => 1 - b

/-- 44_interleaver.md R182: a well-formed PERM reads exactly the populated set, each cell once. -/
def Obligations.ReadSetIsExactlyThePopulatedSet : Prop :=
  ∀ p : Perm, p.table.cells.Nodup ∧ p.table.cells.length = 72 ∧
    ∀ r c, (r, c) ∈ p.table.cells ↔ populated r c = true

/-- 44_interleaver.md R186: pair i lands in byte `i div 4`, its high bit at bit `7 - 2*(i mod 4)` and its low
bit at bit `6 - 2*(i mod 4)`; every output has nine bytes. -/
def Obligations.InterleavePlacesEveryPair : Prop :=
  ∀ (p : Perm) (M : FrameMatrix),
    (interleave p M).length = 9 ∧ ∀ i, i < 36 →
      ((interleave p M).getD (i / 4) 0#8).getLsbD (7 - 2 * (i % 4)) =
          cell M (p.table.rW.getD i 0) (p.table.rX.getD i 0) ∧
        ((interleave p M).getD (i / 4) 0#8).getLsbD (6 - 2 * (i % 4)) =
          cell M (p.table.rY.getD i 0) (p.table.rZ.getD i 0)

/-- INTERLEAVE's RESULT: stream bit 2i, the high bit of pair i, at RESULT[71-2i], stream bit 2i+1 at
RESULT[70-2i], the bits above 71 all 0; nothing but RESP changes (derived from 44_interleaver.md R186, R189
and 20_memory.md R54). -/
def Obligations.InterleaveCommandWritesTheStream : Prop :=
  ∀ (s : State) (opnd : Operand), ∃ x : BitVec 96,
    exec (.interleave opnd) s =
        .next { s with resp := { status := 0x00#8, ropc := 0x07#8, result := x } } ∧
      x.toNat < 2 ^ 72 ∧ ∀ i, i < 36 →
        x.getLsbD (71 - 2 * i) =
            opnd.getLsbD (95 - (24 * s.perm.table.rW.getD i 0 + s.perm.table.rX.getD i 0)) ∧
          x.getLsbD (70 - 2 * i) =
            opnd.getLsbD (95 - (24 * s.perm.table.rY.getD i 0 + s.perm.table.rZ.getD i 0))

/-- 44_interleaver.md R187: the stream holds each populated cell exactly once. (a) The number of 1 bits is that
of M over P. (b) Deinterleaving recovers M on P, and interleaving a deinterleaved stream gives it back. -/
def Obligations.InterleaveIsABijection : Prop :=
  ∀ p : Perm,
    (∀ M : FrameMatrix, ones (streamOf (interleave p M)) = onesOverP M) ∧
      (∀ (M : FrameMatrix) (r c : Nat), populated r c = true →
        cell (deinterleave p (streamOf (interleave p M))) r c = cell M r c) ∧
      (∀ x : BitVec 72, streamOf (interleave p (deinterleave p x)) = x) ∧
      ∀ r c, populated r c = true → ∃ j, j < 72 ∧
        (∀ M : FrameMatrix, (streamOf (interleave p M)).getMsbD j = cell M r c) ∧
        ∀ k, k < 72 → (∀ M : FrameMatrix, (streamOf (interleave p M)).getMsbD k = cell M r c) → k = j

/-- 44_interleaver.md R188: the pad and the other unpopulated cells never reach the output. -/
def Obligations.UnpopulatedCellsNeverReachTheOutput : Prop :=
  ∀ (p : Perm) (M N : FrameMatrix), agreeOnP M N → interleave p M = interleave p N

/-- 20_memory.md R52: the nine output bytes in RESULT, byte 0 at RESULT[71:64] and byte 8 at RESULT[7:0]; the
seven input bytes in OPND, `b(0)` at OPND[55:48]. -/
def Obligations.ByteStringsAreBigEndian : Prop :=
  (∀ (out : List Byte) (k : Nat), out.length = 9 → k < 9 →
    (resultBytes out).extractLsb' (64 - 8 * k) 8 = out.getD k 0#8) ∧
    ∀ (opnd : Operand) (k : Nat), k < 7 →
      (operandBytes opnd).getD k 0#8 = opnd.extractLsb' (48 - 8 * k) 8

/-! ### The pipeline -/

/-- 40_encode_pipeline.md R102: ENCODE with LEN = 7 writes the nine bytes of the four stages in their order,
with any other LEN the length error; RESULT[95:72] is 0; the all-zero input gives S with row 1 = 0xC46684,
interleaved, which is not all zero. Nothing but RESP changes. -/
def Obligations.EncodeRunsTheFourStages : Prop :=
  ∀ (s : State) (len : BitVec 8) (opnd : Operand),
    (len ≠ 7#8 → exec (.encode len opnd) s =
      .next { s with resp := { status := 0x01#8, ropc := 0x01#8, result := 0#96 } }) ∧
    (len = 7#8 → exec (.encode len opnd) s =
      .next { s with resp := { status := 0x00#8, ropc := 0x01#8,
                               result := resultBytes (interleave s.perm (scramble (assemble
                                 (opnd.extractLsb' 7 49)))) } }) ∧
    (resultBytes (interleave s.perm (scramble (assemble (opnd.extractLsb' 7 49))))).toNat < 2 ^ 72 ∧
    exec (.encode 7#8 0#96) s =
      .next { s with resp := { status := 0x00#8, ropc := 0x01#8,
                               result := resultBytes (interleave s.perm 0x000000_C46684_000000_000000#96) } } ∧
    resultBytes (interleave s.perm 0x000000_C46684_000000_000000#96) ≠ 0#96

/-- The stage commands chained by the host, each RESULT copied into the next OPND, end in the RESULT and the
STATUS, OK, that ENCODE gives; only ROPC differs (derived from 40_encode_pipeline.md R100 and 95_test_vectors.md
program P1). -/
def Obligations.StageChainEqualsEncode : Prop :=
  ∀ (s : State) (opnd : Operand), ∃ a b c d e,
    exec (.unpack 7#8 opnd) s = .next a ∧ exec (.assemble a.resp.result) a = .next b ∧
      exec (.scramble b.resp.result) b = .next c ∧ exec (.interleave c.resp.result) c = .next d ∧
      exec (.encode 7#8 opnd) s = .next e ∧ d.resp.result = e.resp.result ∧
      d.resp.status = e.resp.status ∧ e.resp.status = 0x00#8 ∧ d.resp.ropc = 0x07#8 ∧ e.resp.ropc = 0x01#8

/-- The five lanes run side by side give the scrambled matrix of the sequential pipeline, and each lane reads
its own field alone (derived from 40_encode_pipeline.md R105, R107). -/
def Obligations.LanesEqualTheSequentialPipeline : Prop :=
  (∀ v : Ambe49, (lanes v).matrix = scramble (assemble v)) ∧
    ∀ v w : Ambe49,
      ((∀ i, i ≤ 11 → v.getMsbD i = w.getMsbD i) →
        (lanes v).row0 = (lanes w).row0 ∧ (lanes v).keys = (lanes w).keys) ∧
      ((∀ i, 12 ≤ i → i ≤ 23 → v.getMsbD i = w.getMsbD i) → (lanes v).row1 = (lanes w).row1) ∧
      ((∀ i, 24 ≤ i → i ≤ 34 → v.getMsbD i = w.getMsbD i) → (lanes v).row2 = (lanes w).row2) ∧
      ((∀ i, 35 ≤ i → i ≤ 48 → v.getMsbD i = w.getMsbD i) → (lanes v).row3 = (lanes w).row3)

/-- ENCODE loses nothing: inputs whose first 49 bits differ give different frames, whatever the well-formed PERM
(derived from 42_fec_field_encoder.md R150, 43_scrambler.md R166 and 44_interleaver.md R187). -/
def Obligations.EncodeIsInjective : Prop :=
  ∀ (s t u : State) (a b : Operand), exec (.encode 7#8 a) s = .next t → exec (.encode 7#8 b) s = .next u →
    t.resp = u.resp → a.extractLsb' 7 49 = b.extractLsb' 7 49

/-! ### The whole machine -/

/-- RESP after reset is legal and no illegal word has been read. -/
def Obligations.ResetMeetsTheInvariant : Prop := State.reset.Inv

/-- Every step keeps the invariant: RESP holds a legal response and every word a host has read is one (derived
from 10_state.md R35, R41, 30_encoding.md R76, R82, 42_fec_field_encoder.md R131, R146, 60_exceptions.md R200,
R204). -/
def Obligations.EveryStepKeepsRespLegal : Prop := ∀ s t : State, s.Inv → step s = .next t → t.Inv

/-- No run of any length changes PERM (derived from 10_state.md R37, R42). That the words read before are still
there is the model's choice (DESIGN CHOICE, log entry 4): `seen` is its own field. -/
def Obligations.RunsNeverChangePerm : Prop :=
  ∀ (n : Nat) (s : State), ∃ t, runFor n s = some t ∧ t.perm = s.perm ∧ s.seen <+: t.seen

/-- RESP after a run of host actions that ends in a CMD write is the response to that write alone: nothing of
what came before it is left (derived from 10_state.md R31, R39, 20_memory.md R60, 60_exceptions.md R209). -/
def Obligations.OnlyTheLastCommandCounts : Prop :=
  ∀ (s : State) (before : List HostAction) (w : CmdWord), s.host = before ++ [.writeCmd w] →
    ∃ t u, runFor (before.length + 1) s = some t ∧
      step { State.reset with perm := s.perm, host := [.writeCmd w] } = .next u ∧
      t.resp = u.resp ∧ t.host = [] ∧ t.perm = s.perm

/-- Every reachable state meets the invariant, and from it every run of any length completes (derived from
60_exceptions.md R216 and 10_state.md R35). -/
def Obligations.ReachableStatesAreSafe : Prop :=
  ∀ s : State, Reachable s → s.Inv ∧ ∀ n, ∃ t, runFor n s = some t

/-- Instance k becomes the next state of its own step, every other instance stays as it is and PERM stays
shared; instances start together from reset sharing one PERM (derived from 60_exceptions.md R215, 10_state.md
R44). That a number naming no instance changes nothing is the model's choice (log entry 11), and so is that a
reset in one instance's action list resets it alone (log entry 16). -/
def Obligations.InstancesDoNotDisturbEachOther : Prop :=
  (∀ (P : Platform) (p : Perm) (k : Nat), P.shares p →
    ∃ Q, P.stepAt k = .next Q ∧ Q.shares p ∧ Q.units.length = P.units.length ∧
      (∀ s, P.units[k]? = some s → ∃ s', step s = .next s' ∧ Q.units[k]? = some s') ∧
      (P.units[k]? = none → Q = P) ∧
      ∀ j, j ≠ k → Q.units[j]? = P.units[j]?) ∧
    ∀ n, (Platform.reset n).units.length = n ∧ (Platform.reset n).shares Config.perm

/-- The assembler, form by form: the range of each operand, the word written to CMD as a number, and the command,
LEN and OPND it decodes to. An operand out of its range gives no word, `.word` gives its value as it is, and only
`.word` can write an illegal word (derived from 30_encoding.md R83, with the two forms of R84). -/
def Obligations.AssemblerWritesLegalWords : Prop :=
  (∀ len bytes, assemblesTo (.encode len bytes) (len ≤ 255 ∧ bytes < 2 ^ 56)
      (0x01 * 2 ^ 120 + len * 2 ^ 112 + bytes) (.encode (BitVec.ofNat 8 len) (BitVec.ofNat 96 bytes))) ∧
    (∀ len bytes, assemblesTo (.unpack len bytes) (len ≤ 255 ∧ bytes < 2 ^ 56)
      (0x02 * 2 ^ 120 + len * 2 ^ 112 + bytes) (.unpack (BitVec.ofNat 8 len) (BitVec.ofNat 96 bytes))) ∧
    (∀ bytes, assemblesTo (.encodeSeven bytes) (bytes < 2 ^ 56)
      (0x01 * 2 ^ 120 + 7 * 2 ^ 112 + bytes) (.encode 7#8 (BitVec.ofNat 96 bytes))) ∧
    (∀ bytes, assemblesTo (.unpackSeven bytes) (bytes < 2 ^ 56)
      (0x02 * 2 ^ 120 + 7 * 2 ^ 112 + bytes) (.unpack 7#8 (BitVec.ofNat 96 bytes))) ∧
    (∀ d, assemblesTo (.golay d) (d ≤ 0xFFF) (0x03 * 2 ^ 120 + d) (.golay (BitVec.ofNat 96 d))) ∧
    (∀ w, assemblesTo (.parity w) (w ≤ 0xFFFFFF) (0x04 * 2 ^ 120 + w) (.parity (BitVec.ofNat 96 w))) ∧
    (∀ v, assemblesTo (.assemble v) (v < 2 ^ 49) (0x05 * 2 ^ 120 + v) (.assemble (BitVec.ofNat 96 v))) ∧
    (∀ m, assemblesTo (.scramble m) (m < 2 ^ 96) (0x06 * 2 ^ 120 + m) (.scramble (BitVec.ofNat 96 m))) ∧
    (∀ m, assemblesTo (.interleave m) (m < 2 ^ 96) (0x07 * 2 ^ 120 + m) (.interleave (BitVec.ofNat 96 m))) ∧
    (∀ x, (x < 2 ^ 128 → asmLine (.word x) = some (BitVec.ofNat 128 x)) ∧
      (2 ^ 128 ≤ x → asmLine (.word x) = none)) ∧
    ∀ l w e, asmLine l = some w → decode w = .error e → ∃ x, l = .word x

/-- 30_encoding.md R84: the two pseudo-instructions expand to LEN 7. -/
def Obligations.PseudoInstructionsSupplySeven : Prop :=
  ∀ bytes, asmLine (.encodeSeven bytes) = asmLine (.encode 7 bytes) ∧
    asmLine (.unpackSeven bytes) = asmLine (.unpack 7 bytes)
end

