-- ==== Sys2Proof/Laws/Bits.lean ====
section
/-! SUPPORT. What a sequence or a matrix built from its elements reads as. -/

namespace Sys2Proof.Machine

open Sys2Proof

/-- Bit i of a sequence's value is the element counted from its end. -/
theorem getLsbD_ofSeq (n : Nat) (f : Nat → Bool) (i : Nat) :
    (ofSeq n f).getLsbD i = (decide (i < n) && f (n - 1 - i)) := by
  induction n generalizing i with
  | zero => simp [ofSeq]
  | succ n ih =>
    rw [ofSeq, BitVec.getLsbD_concat]
    cases i with
    | zero => simp
    | succ i =>
      have h : n - 1 - i = n + 1 - 1 - (i + 1) := by omega
      simp [ih, h]

/-- Element i of a sequence is what it was built from. -/
theorem getMsbD_ofSeq (n : Nat) (f : Nat → Bool) (i : Nat) :
    (ofSeq n f).getMsbD i = (decide (i < n) && f i) := by
  rw [BitVec.getMsbD, getLsbD_ofSeq]
  by_cases h : i < n
  · have h1 : n - 1 - i < n := by omega
    have h2 : n - 1 - (n - 1 - i) = i := by omega
    simp [h, h1, h2]
  · simp [h]

/-- Two values whose elements agree are equal. -/
theorem eq_of_elements {n : Nat} {x y : BitVec n} (h : ∀ i, i < n → x.getMsbD i = y.getMsbD i) : x = y :=
  BitVec.eq_of_getMsbD_eq fun i hi => h i hi

/-- A sequence built from a value's own elements is the value. -/
theorem ofSeq_getMsbD {n : Nat} (x : BitVec n) : (ofSeq n fun i => x.getMsbD i) = x :=
  eq_of_elements fun i hi => by simp [getMsbD_ofSeq, hi]

/-- The cells of a matrix built from its cells. -/
theorem cell_ofCells (f : Nat → Nat → Bool) {r c : Nat} (hr : r < 4) (hc : c < 24) :
    cell (ofCells f) r c = f r c := by
  have h1 : 24 * r + c < 96 := by omega
  have h2 : (24 * r + c) / 24 = r := by omega
  have h3 : (24 * r + c) % 24 = c := by omega
  simp [cell, ofCells, getMsbD_ofSeq, h1, h2, h3]

/-- Two matrices whose cells agree are equal. -/
theorem matrix_ext {M N : FrameMatrix} (h : ∀ r c, r < 4 → c < 24 → cell M r c = cell N r c) : M = N :=
  eq_of_elements fun i hi => by
    have e : 24 * (i / 24) + i % 24 = i := Nat.div_add_mod i 24
    have := h (i / 24) (i % 24) (by omega) (by omega)
    simpa [cell, e] using this

/-- Row r of a matrix, column by column. -/
theorem rowval_getLsbD (M : FrameMatrix) (r c : Nat) (hc : c < 24) :
    (rowval M r).getLsbD (23 - c) = cell M r c := by
  have h1 : 23 - c < 24 := by omega
  have h2 : 24 - 1 - (23 - c) = c := by omega
  simp only [rowval, getLsbD_ofSeq, h1, h2, decide_true, Bool.true_and]

end Sys2Proof.Machine
end

