-- ==== Sys2Proof/Laws/Cells.lean ====
section
/-! SUPPORT. The cells of the matrices the stages build. -/

namespace Sys2Proof.Machine

open Sys2Proof

/-- The cells of the assembled matrix (42_fec_field_encoder.md R142 to R145). -/
theorem cell_assemble (v : Ambe49) {r c : Nat} (hr : r < 4) (hc : c < 24) :
    cell (assemble v) r c = assembleCell (c0FieldWord (fieldC0 v)) (golay (fieldC1 v)) v r c :=
  cell_ofCells _ hr hc

/-- The cells of the scrambled matrix (43_scrambler.md R163). -/
theorem cell_scramble (M : FrameMatrix) {r c : Nat} (hr : r < 4) (hc : c < 24) :
    cell (scramble M) r c =
      if r = 1 ∧ c ≤ 22 then cell M r c ^^ decide (key (seed M) (23 - c) = 1) else cell M r c :=
  cell_ofCells _ hr hc

/-- Scrambling leaves row 0 as it is (43_scrambler.md R163, R166). -/
theorem cell_scramble_row0 (M : FrameMatrix) {c : Nat} (hc : c < 24) : cell (scramble M) 0 c = cell M 0 c := by
  rw [cell_scramble M (by omega) hc]
  simp

/-- The bits of a Golay codeword: data below, check bits above (42_fec_field_encoder.md R131). -/
theorem golay_getLsbD (d : BitVec 12) (i : Nat) :
    (golay d).getLsbD i =
      if i < 12 then d.getLsbD i else decide (i < 23) && (golayCheck d).getLsbD (i - 12) := by
  rw [golay, BitVec.getLsbD_or, BitVec.getLsbD_shiftLeft, BitVec.getLsbD_setWidth, BitVec.getLsbD_setWidth]
  by_cases h : i < 12
  · have h1 : i < 23 := by omega
    simp [h, h1]
  · have h2 : d.getLsbD i = false := BitVec.getLsbD_of_ge _ _ (by omega)
    have h3 : i - 12 < 23 ∨ ¬ i < 23 := by omega
    rcases h3 with h3 | h3 <;> simp [h, h2, h3]

end Sys2Proof.Machine
end

