-- ==== Sys2Proof/Laws/PerInstr.lean ====
section
/-! SUPPORT. Facts about every command as syntax, one lemma per constructor. -/

namespace Sys2Proof.Laws.EncodedFields

open Sys2Proof

/-- The word of a command carries its opcode, its LEN, RSVD = 0 and its operand in the fields of
30_encoding.md R70. -/
def Statement (i : Instr) : Prop :=
  opcField (encode i) = i.opc ∧ lenField (encode i) = i.len ∧ rsvdField (encode i) = 0#16 ∧
    opndField (encode i) = i.opnd

theorem fields_of_mkCmd (opc len : BitVec 8) (rsvd : BitVec 16) (opnd : Operand) :
    opcField (mkCmd opc len rsvd opnd) = opc ∧ lenField (mkCmd opc len rsvd opnd) = len ∧
      rsvdField (mkCmd opc len rsvd opnd) = rsvd ∧ opndField (mkCmd opc len rsvd opnd) = opnd := by
  refine ⟨?_, ?_, ?_, ?_⟩ <;>
    (apply BitVec.eq_of_getLsbD_eq; intro i hi)
  · have h1 : ¬ 120 + i < 96 := by omega
    have h2 : ¬ 120 + i - 96 < 16 := by omega
    have h3 : ¬ 120 + i - 96 - 16 < 8 := by omega
    have h4 : 120 + i - 96 - 16 - 8 = i := by omega
    simp only [opcField, mkCmd, BitVec.getLsbD_extractLsb', BitVec.getLsbD_append, h1, h2, h3, h4, hi, if_false,
      decide_true, Bool.true_and]
  · have h1 : ¬ 112 + i < 96 := by omega
    have h2 : ¬ 112 + i - 96 < 16 := by omega
    have h3 : 112 + i - 96 - 16 = i := by omega
    simp only [lenField, mkCmd, BitVec.getLsbD_extractLsb', BitVec.getLsbD_append, h1, h2, h3, hi, if_false, if_true,
      decide_true, Bool.true_and]
  · have h1 : ¬ 96 + i < 96 := by omega
    have h3 : 96 + i - 96 = i := by omega
    simp only [rsvdField, mkCmd, BitVec.getLsbD_extractLsb', BitVec.getLsbD_append, h1, h3, hi, if_false, if_true,
      decide_true, Bool.true_and]
  · simp only [opndField, mkCmd, BitVec.getLsbD_extractLsb', BitVec.getLsbD_append, Nat.zero_add, hi, if_true,
      decide_true, Bool.true_and]

theorem encode (len : BitVec 8) (opnd : Operand) : Statement (.encode len opnd) := fields_of_mkCmd _ _ _ _
theorem unpack (len : BitVec 8) (opnd : Operand) : Statement (.unpack len opnd) := fields_of_mkCmd _ _ _ _
theorem golay (opnd : Operand) : Statement (.golay opnd) := fields_of_mkCmd _ _ _ _
theorem parity (opnd : Operand) : Statement (.parity opnd) := fields_of_mkCmd _ _ _ _
theorem assemble (opnd : Operand) : Statement (.assemble opnd) := fields_of_mkCmd _ _ _ _
theorem scramble (opnd : Operand) : Statement (.scramble opnd) := fields_of_mkCmd _ _ _ _
theorem interleave (opnd : Operand) : Statement (.interleave opnd) := fields_of_mkCmd _ _ _ _

end Sys2Proof.Laws.EncodedFields
end

