-- ==== Sys2Proof/Laws/Platform.lean ====
section
/-! SUPPORT. Everything a step of a platform can do, said once. -/

namespace Sys2Proof.Machine

open Sys2Proof

/-- A number that names no instance does nothing; otherwise the platform's outcome is that of the instance's own
step, which takes the instance's place. -/
theorem Platform.stepAt_cases (k : Nat) (P : Platform) :
    (P.units[k]? = none ∧ P.stepAt k = .next P) ∨
      (∃ s s', P.units[k]? = some s ∧ step s = .next s' ∧ P.stepAt k = .next { units := P.units.set k s' }) ∨
      (∃ s r, P.units[k]? = some s ∧ step s = .fault r ∧ P.stepAt k = .fault r) ∨
      (∃ s r, P.units[k]? = some s ∧ step s = .refused r ∧ P.stepAt k = .refused r) := by
  cases h : P.units[k]? with
  | none => exact .inl ⟨rfl, by simp [Platform.stepAt, h]⟩
  | some s =>
    cases hs : step s with
    | next s' => exact .inr (.inl ⟨s, s', rfl, hs, by simp [Platform.stepAt, h, hs]⟩)
    | fault r => exact .inr (.inr (.inl ⟨s, r, rfl, hs, by simp [Platform.stepAt, h, hs]⟩))
    | refused r => exact .inr (.inr (.inr ⟨s, r, rfl, hs, by simp [Platform.stepAt, h, hs]⟩))

end Sys2Proof.Machine
end

