-- ==== Sys2Proof/Laws/State.lean ====
section
/-! SUPPORT. One lemma per field of State per update, so that no proof unfolds a record update. -/

namespace Sys2Proof.Machine

open Sys2Proof

@[simp] theorem State.setResp_resp (s : State) (r : Resp) : (s.setResp r).resp = r := rfl
@[simp] theorem State.setResp_perm (s : State) (r : Resp) : (s.setResp r).perm = s.perm := rfl
@[simp] theorem State.setResp_host (s : State) (r : Resp) : (s.setResp r).host = s.host := rfl
@[simp] theorem State.setResp_seen (s : State) (r : Resp) : (s.setResp r).seen = s.seen := rfl

@[simp] theorem mkResp_status (a b : BitVec 8) (x : BitVec 96) : (mkResp a b x).status = a := rfl
@[simp] theorem mkResp_ropc (a b : BitVec 8) (x : BitVec 96) : (mkResp a b x).ropc = b := rfl
@[simp] theorem mkResp_result (a b : BitVec 8) (x : BitVec 96) : (mkResp a b x).result = x := rfl

@[simp] theorem respond_resp (o : BitVec 8) (x : BitVec 96) (s : State) :
    (respond o x s).resp = mkResp statusOk o x := rfl
@[simp] theorem respond_perm (o : BitVec 8) (x : BitVec 96) (s : State) : (respond o x s).perm = s.perm := rfl
@[simp] theorem respond_host (o : BitVec 8) (x : BitVec 96) (s : State) : (respond o x s).host = s.host := rfl
@[simp] theorem respond_seen (o : BitVec 8) (x : BitVec 96) (s : State) : (respond o x s).seen = s.seen := rfl

@[simp] theorem raise_resp (e : CoreError) (o : BitVec 8) (s : State) :
    (raise e o s).resp = mkResp e.code o 0#96 := rfl
@[simp] theorem raise_perm (e : CoreError) (o : BitVec 8) (s : State) : (raise e o s).perm = s.perm := rfl
@[simp] theorem raise_host (e : CoreError) (o : BitVec 8) (s : State) : (raise e o s).host = s.host := rfl
@[simp] theorem raise_seen (e : CoreError) (o : BitVec 8) (s : State) : (raise e o s).seen = s.seen := rfl

@[simp] theorem answerIllegal_resp (w : CmdWord) (s : State) :
    (answerIllegal w s).resp = mkResp statusIllegalCommand (opcField w) 0#96 := rfl
@[simp] theorem answerIllegal_perm (w : CmdWord) (s : State) : (answerIllegal w s).perm = s.perm := rfl
@[simp] theorem answerIllegal_host (w : CmdWord) (s : State) : (answerIllegal w s).host = s.host := rfl
@[simp] theorem answerIllegal_seen (w : CmdWord) (s : State) : (answerIllegal w s).seen = s.seen := rfl

@[simp] theorem applyReset_resp (s : State) : (applyReset s).resp = Resp.reset := rfl
@[simp] theorem applyReset_perm (s : State) : (applyReset s).perm = s.perm := rfl
@[simp] theorem applyReset_host (s : State) : (applyReset s).host = s.host := rfl
@[simp] theorem applyReset_seen (s : State) : (applyReset s).seen = s.seen := rfl

@[simp] theorem readResp_resp (s : State) : (readResp s).resp = s.resp := rfl
@[simp] theorem readResp_perm (s : State) : (readResp s).perm = s.perm := rfl
@[simp] theorem readResp_host (s : State) : (readResp s).host = s.host := rfl
@[simp] theorem readResp_seen (s : State) : (readResp s).seen = s.seen ++ [s.resp.word] := rfl

@[simp] theorem reset_resp : State.reset.resp = Resp.reset := rfl
@[simp] theorem reset_perm : State.reset.perm = Config.perm := rfl
@[simp] theorem reset_host : State.reset.host = [] := rfl
@[simp] theorem reset_seen : State.reset.seen = [] := rfl

@[simp] theorem withFetchWord_resp (s : State) (n w : Nat) : (s.withFetchWord n w).resp = s.resp := rfl
@[simp] theorem withFetchWord_perm (s : State) (n w : Nat) : (s.withFetchWord n w).perm = s.perm := rfl
@[simp] theorem withFetchWord_seen (s : State) (n w : Nat) : (s.withFetchWord n w).seen = s.seen := rfl
@[simp] theorem withFetchWord_host (s : State) (n w : Nat) :
    (s.withFetchWord n w).host = .writeCmd (BitVec.ofNat 128 (w % 2 ^ n)) :: s.host := rfl

end Sys2Proof.Machine
end

