-- ==== Sys2Proof/Laws/Step.lean ====
section
/-! SUPPORT. What a command and a step can do, said once. -/

namespace Sys2Proof.Machine

open Sys2Proof

/-- Every command writes RESP and nothing else: a next state with ROPC the command's own opcode, whose
STATUS is OK, or INVALID_INPUT_LENGTH with RESULT 0 for ENCODE and UNPACK with LEN not 7. -/
theorem exec_sets_resp (i : Instr) (s : State) :
    (∃ x, exec i s = .next (s.setResp (mkResp statusOk i.opc x))) ∨
      ((i.opc = 1#8 ∨ i.opc = 2#8) ∧ i.len ≠ 7#8 ∧
        exec i s = .next (s.setResp (mkResp statusInvalidInputLength i.opc 0#96))) := by
  cases i with
  | encode len opnd =>
    by_cases h : len = 7#8
    · exact .inl ⟨_, by simp only [exec, execEncode, h, ne_eq, not_true_eq_false, if_false, respond, Instr.opc]; rfl⟩
    · exact .inr ⟨.inl rfl, h, by simp [exec, execEncode, h, raise, CoreError.code, Instr.opc]⟩
  | unpack len opnd =>
    by_cases h : len = 7#8
    · exact .inl ⟨_, by simp only [exec, execUnpack, h, ne_eq, not_true_eq_false, if_false, respond, Instr.opc]; rfl⟩
    · exact .inr ⟨.inr rfl, h, by simp [exec, execUnpack, h, raise, CoreError.code, Instr.opc]⟩
  | golay opnd => exact .inl ⟨_, rfl⟩
  | parity opnd => exact .inl ⟨_, rfl⟩
  | assemble opnd => exact .inl ⟨_, rfl⟩
  | scramble opnd => exact .inl ⟨_, rfl⟩
  | interleave opnd => exact .inl ⟨_, rfl⟩

/-- Every command gives a next state that differs from the old one in RESP only. -/
theorem exec_next (i : Instr) (s : State) : ∃ r, exec i s = .next (s.setResp r) := by
  rcases exec_sets_resp i s with ⟨x, h⟩ | ⟨-, -, h⟩
  · exact ⟨_, h⟩
  · exact ⟨_, h⟩

/-- What one command word does. -/
theorem runCommand_cases (w : CmdWord) (s : State) :
    (∃ e, decode w = .error e ∧ runCommand w s = .next (answerIllegal w s)) ∨
      (∃ i, decode w = .ok i ∧ runCommand w s = exec i s) := by
  unfold runCommand
  cases h : decode w with
  | error e => exact .inl ⟨e, rfl, rfl⟩
  | ok i => exact .inr ⟨i, rfl, rfl⟩

/-- Everything one step can do: wait, run a command word, answer a read, or reset. -/
theorem step_cases (s : State) :
    (s.host = [] ∧ step s = .next s) ∨
      (∃ w rest, s.host = .writeCmd w :: rest ∧ step s = runCommand w { s with host := rest }) ∨
      (∃ rest, s.host = .readResp :: rest ∧ step s = .next (readResp { s with host := rest })) ∨
      (∃ rest, s.host = .reset :: rest ∧ step s = .next (applyReset { s with host := rest })) := by
  cases h : s.host with
  | nil => exact .inl ⟨rfl, by simp [step, takeAction, h]⟩
  | cons a rest =>
    cases a with
    | writeCmd w => exact .inr (.inl ⟨w, rest, rfl, by simp [step, takeAction, h]⟩)
    | readResp => exact .inr (.inr (.inl ⟨rest, rfl, by simp [step, takeAction, h]⟩))
    | reset => exact .inr (.inr (.inr ⟨rest, rfl, by simp [step, takeAction, h]⟩))

end Sys2Proof.Machine
end

