-- ==== Sys2Proof/Laws/Stream.lean ====
section
/-! SUPPORT. What appending bits to the output buffer builds, and how byte strings lie in RESULT. -/

namespace Sys2Proof.Machine

open Sys2Proof

/-- Eight shifts push a byte's old value out: only the eight bits appended remain
(44_interleaver.md R185). -/
theorem eight_shifts (x : Byte) (f : Nat → Bool) :
    (List.range 8).foldl (fun (y : Byte) t => (y <<< 1) ||| (BitVec.ofBool (f t)).setWidth 8) x = ofSeq 8 f := by
  apply BitVec.eq_of_getLsbD_eq
  intro i hi
  rw [getLsbD_ofSeq]
  simp only [List.range_succ, List.range_zero, List.foldl_append, List.foldl_nil, List.foldl_cons, List.nil_append,
    BitVec.getLsbD_or, BitVec.getLsbD_shiftLeft, BitVec.getLsbD_setWidth, BitVec.getLsbD_ofBool]
  interval_cases i <;> simp

/-- Appending bits at a cursor that stays inside byte k changes that byte alone. -/
theorem append_in_byte (k : Nat) (f : Nat → Bool) (n : Nat) (hn : n ≤ 8) (o : OutBuf) (hj : o.j = 8 * k) :
    (List.range n).foldl (fun o t => o.append (f t)) o =
      { out := o.out.modify k
          fun x => (List.range n).foldl (fun (y : Byte) t => (y <<< 1) ||| (BitVec.ofBool (f t)).setWidth 8) x
        j := 8 * k + n } := by
  induction n with
  | zero =>
    obtain ⟨out, j⟩ := o
    simp only [List.range_zero, List.foldl_nil, Nat.add_zero]
    rw [show (fun x : Byte => x) = id from rfl, List.modify_id]
    exact congrArg _ hj
  | succ n ih =>
    have h8 : (8 * k + n) / 8 = k := by omega
    rw [List.range_succ, List.foldl_append, ih (by omega)]
    simp only [List.foldl_cons, List.foldl_nil, OutBuf.append, h8, List.modify_modify_eq, List.foldl_append]
    rfl

/-- Appending eight bits at the start of byte k makes them that byte. -/
theorem append_byte (k : Nat) (f : Nat → Bool) (o : OutBuf) (hj : o.j = 8 * k) :
    (List.range 8).foldl (fun o t => o.append (f t)) o =
      { out := o.out.modify k fun _ => ofSeq 8 f, j := 8 * (k + 1) } := by
  rw [append_in_byte k f 8 (Nat.le_refl 8) o hj]
  simp only [eight_shifts]
  rfl

/-- Changing the first element after `l`. -/
theorem modify_after {α : Type} (l r : List α) (x : α) (g : α → α) :
    (l ++ x :: r).modify l.length g = l ++ g x :: r := by
  induction l with
  | nil => simp
  | cons a l ih => simpa using ih

/-- Appending the bits `f 0, f 1, …` to the empty buffer fills its bytes one after another, most significant
bit first (20_memory.md R51). -/
theorem append_stream (f : Nat → Bool) (m : Nat) (hm : m ≤ 9) :
    (List.range (8 * m)).foldl (fun o t => o.append (f t)) OutBuf.start =
      { out := ((List.range m).map fun k => ofSeq 8 fun t => f (8 * k + t)) ++ List.replicate (9 - m) 0#8
        j := 8 * m } := by
  induction m with
  | zero => rfl
  | succ m ih =>
    have e : 8 * (m + 1) = 8 * m + 8 := by omega
    have r : 9 - m = (9 - (m + 1)) + 1 := by omega
    have len : ((List.range m).map fun k => ofSeq 8 fun t => f (8 * k + t)).length = m := by simp
    rw [e, List.range_add, List.foldl_append, ih (by omega), List.foldl_map,
      append_byte m (fun t => f (8 * m + t)) _ rfl, List.range_succ, List.map_append, r, List.replicate_succ]
    have here := modify_after ((List.range m).map fun k => ofSeq 8 fun t => f (8 * k + t))
      (List.replicate (9 - (m + 1)) 0#8) 0#8 fun _ => ofSeq 8 fun t => f (8 * m + t)
    rw [len] at here
    rw [here, e]
    simp

/-- Bit j of the output stream: the j-th of the 72 cells PERM names (44_interleaver.md R186). -/
def streamBit (p : Perm) (M : FrameMatrix) (j : Nat) : Bool :=
  if j % 2 = 0 then cell M (p.table.hiCell (j / 2)).1 (p.table.hiCell (j / 2)).2
  else cell M (p.table.loCell (j / 2)).1 (p.table.loCell (j / 2)).2

theorem append_pairs (p : Perm) (M : FrameMatrix) (n : Nat) (o : OutBuf) :
    (List.range n).foldl
        (fun o i =>
          (o.append (cell M (p.table.hiCell i).1 (p.table.hiCell i).2)).append
            (cell M (p.table.loCell i).1 (p.table.loCell i).2)) o =
      (List.range (2 * n)).foldl (fun o t => o.append (streamBit p M t)) o := by
  induction n with
  | zero => rfl
  | succ n ih =>
    have e : 2 * (n + 1) = 2 * n + 1 + 1 := by omega
    have h0 : (2 * n) % 2 = 0 := by omega
    have h1 : (2 * n + 1) % 2 = 1 := by omega
    have d1 : (2 * n + 1) / 2 = n := by omega
    rw [List.range_succ, List.foldl_append, ih, e, List.range_succ, List.range_succ]
    simp [streamBit, h1, d1]

/-- Everything the interleaver does: byte k of its output is stream bits 8k to 8k+7, the first the most
significant (44_interleaver.md R184, R186). -/
theorem interleave_eq_stream (p : Perm) (M : FrameMatrix) :
    interleave p M = (List.range 9).map fun k => ofSeq 8 fun t => streamBit p M (8 * k + t) := by
  rw [interleave, append_pairs, show 2 * 36 = 8 * 9 from rfl, append_stream _ 9 (Nat.le_refl 9)]
  simp

/-- Bit i of RESULT when it holds the bytes `B 0, …, B (m-1)`, byte 0 the most significant
(20_memory.md R52). -/
theorem resultBytes_getLsbD (B : Nat → Byte) (m : Nat) (hm : m ≤ 12) (i : Nat) :
    (resultBytes ((List.range m).map B)).getLsbD i =
      (decide (i < 8 * m) && (B (m - 1 - i / 8)).getLsbD (i % 8)) := by
  induction m generalizing i with
  | zero => simp [resultBytes]
  | succ m ih =>
    have step : resultBytes ((List.range (m + 1)).map B) =
        (resultBytes ((List.range m).map B) <<< 8) ||| (B m).setWidth 96 := by
      simp [resultBytes, List.range_succ, List.foldl_append]
    rw [step, BitVec.getLsbD_or, BitVec.getLsbD_shiftLeft, BitVec.getLsbD_setWidth]
    by_cases h8 : i < 8
    · have h1 : i / 8 = 0 := by omega
      have h2 : i % 8 = i := by omega
      have h3 : i < 96 := by omega
      have h4 : i < 8 * (m + 1) := by omega
      simp [h8, h1, h2, h3, h4]
    · have hz : (B m).getLsbD i = false := BitVec.getLsbD_of_ge _ _ (by omega)
      rw [ih (by omega)]
      have e1 : (i - 8) / 8 = i / 8 - 1 := by omega
      have e2 : (i - 8) % 8 = i % 8 := by omega
      have e3 : m - 1 - (i / 8 - 1) = m + 1 - 1 - i / 8 := by omega
      by_cases hb : i < 8 * (m + 1)
      · have h1 : i - 8 < 8 * m := by omega
        have h2 : i < 96 := by omega
        have h3 : m - (i / 8) = m + 1 - 1 - i / 8 := by omega
        simp [h8, hz, e1, e2, e3, h1, h2, hb]
      · have h1 : ¬ i - 8 < 8 * m := by omega
        simp [h8, hz, h1, hb]

end Sys2Proof.Machine
end

