-- ==== Sys2Proof/Tests/Slice0.lean ====
section
/-! SUPPORT. The model's own tests. Every expected value is the spec's: the words of 30_encoding.md R85, the
vectors V-* and programs P* of 95_test_vectors.md, the corner cases of the command rules. The witnesses at
the end meet the hypotheses of the statements. -/

namespace Sys2Proof.Tests

open Sys2Proof Sys2Proof.Machine Sys2Proof.Claims

/-- A small state: PERM = T_DEMO, RESP as after reset, the given actions pending. -/
def demoState (host : List HostAction) : State where
  resp := Resp.reset
  perm := { table := PermTable.demo, wf := PermTable.demo_wf }
  host := host
  seen := []

/-- RESP after one step that performs one CMD write, PERM = T_DEMO. -/
def respAfter (w : CmdWord) : Option RespWord :=
  match step (demoState [.writeCmd w]) with
  | .next s => some s.resp.word
  | .fault _ => none
  | .refused _ => none

/-- RESULT after one command at a given state. -/
def resultOf (i : Instr) : Option (BitVec 96) :=
  match exec i (demoState []) with
  | .next s => if s.resp.status = 0#8 then some s.resp.result else none
  | .fault _ => none
  | .refused _ => none

/-! ### Well-formedness: each check refuses an ill-formed term -/

theorem test_wf_refuses_short_table :
    ({ PermTable.demo with rW := [] } : PermTable).sized = false ∧
      ({ PermTable.demo with rW := [] } : PermTable).wf = false := by decide +kernel

theorem test_wf_refuses_entry_out_of_range :
    ({ PermTable.demo with rX := [24] ++ PermTable.demo.rX.drop 1 } : PermTable).inRange = false ∧
      ({ PermTable.demo with rX := [24] ++ PermTable.demo.rX.drop 1 } : PermTable).wf = false := by decide +kernel

theorem test_wf_refuses_repeated_cell :
    ({ PermTable.demo with rZ := [0] ++ PermTable.demo.rZ.drop 1 } : PermTable).distinct = false ∧
      ({ PermTable.demo with rZ := [0] ++ PermTable.demo.rZ.drop 1 } : PermTable).wf = false := by decide +kernel

/-- The pad is read in place of `M[0][0]` (93_implementation_defined.md U3). -/
theorem test_wf_refuses_pad :
    ({ PermTable.demo with rW := [1] ++ PermTable.demo.rW.drop 1 } : PermTable).populatedOnly = false ∧
      ({ PermTable.demo with rW := [1] ++ PermTable.demo.rW.drop 1 } : PermTable).wf = false := by decide +kernel

/-- The candidate table of 93_implementation_defined.md G1: its cells are distinct, and it fails R182
(95_test_vectors.md V-PRP-6). -/
def candidateG1 : PermTable where
  rW := [0, 1, 0, 1, 0, 1, 0, 1, 0, 1, 0, 1, 0, 1, 0, 1, 0, 1] ++
    [0, 1, 0, 1, 0, 2, 0, 2, 0, 2, 0, 2, 0, 2, 0, 2, 0, 2]
  rX := [23, 10, 22, 9, 21, 8, 20, 7, 19, 6, 18, 5, 17, 4, 16, 3, 15, 2] ++
    [14, 1, 13, 0, 12, 10, 11, 9, 10, 8, 9, 7, 8, 6, 7, 5, 6, 4]
  rY := [0, 2, 0, 2, 0, 2, 0, 2, 0, 3, 0, 3, 1, 3, 1, 3, 1, 3] ++
    [1, 3, 1, 3, 1, 3, 1, 3, 1, 3, 1, 3, 1, 3, 1, 3, 1, 3]
  rZ := [5, 3, 4, 2, 3, 1, 2, 0, 1, 13, 0, 12, 22, 11, 21, 10, 20, 9] ++
    [19, 8, 18, 7, 17, 6, 16, 5, 15, 4, 14, 3, 13, 2, 12, 1, 11, 0]

theorem test_candidate_table_is_refused :
    candidateG1.distinct = true ∧ candidateG1.populatedOnly = false ∧
      (candidateG1.cells.filter fun rc => !populated rc.1 rc.2).length = 22 := by decide +kernel

theorem test_asm_wf_refuses_large_operands :
    (AsmLine.encode 256 0).wf = false ∧ (AsmLine.encode 7 (2 ^ 56)).wf = false ∧
      (AsmLine.encodeSeven (2 ^ 56)).wf = false ∧ (AsmLine.unpack 256 0).wf = false ∧
      (AsmLine.unpack 7 (2 ^ 56)).wf = false ∧ (AsmLine.unpackSeven (2 ^ 56)).wf = false ∧
      (AsmLine.golay 0x1000).wf = false ∧ (AsmLine.parity 0x1000000).wf = false ∧
      (AsmLine.assemble (2 ^ 49)).wf = false ∧ (AsmLine.scramble (2 ^ 96)).wf = false ∧
      (AsmLine.interleave (2 ^ 96)).wf = false ∧ (AsmLine.word (2 ^ 128)).wf = false := by decide

/-! ### Decoding: the words of R85 and 3.7, written out -/

/-- What a word decodes to, if it is legal. -/
def legal (w : CmdWord) : Option Instr := (decode w).toOption

theorem test_decode_encode :
    legal 0x01070000_00000000_00123456_789ABCDE#128 = some (.encode 7#8 0x123456789ABCDE#96) := by decide
theorem test_decode_unpack :
    legal 0x02070000_00000000_00FFFFFF_FFFFFFFF#128 = some (.unpack 7#8 0xFFFFFFFFFFFFFF#96) := by decide
theorem test_decode_golay : legal 0x03000000_00000000_00000000_00000123#128 = some (.golay 0x123#96) := by decide
theorem test_decode_parity :
    legal 0x04000000_00000000_00000000_00085123#128 = some (.parity 0x085123#96) := by decide
theorem test_decode_assemble :
    legal 0x05000000_00000000_00002468_ACF13579#128 = some (.assemble 0x02468ACF13579#96) := by decide
theorem test_decode_scramble :
    legal 0x06000000_8851235E_A4560003_C4003579#128 = some (.scramble 0x8851235EA4560003C4003579#96) := by decide
theorem test_decode_interleave :
    legal 0x07000000_885123DD_90AC0003_C4003579#128 = some (.interleave 0x885123DD90AC0003C4003579#96) := by decide
theorem test_decode_refuses :
    legal 0x08000000_00000000_00000000_00000000#128 = none ∧ legal 0#128 = none ∧
      legal 0x01078000_00000000_00123456_789ABCDE#128 = none ∧
      legal 0x03010000_00000000_00000000_00000123#128 = none := by decide
theorem test_decode_table_word :
    decodeTableWord 128 0x03000000000000000000000000000000 = some (.golay 0#96) := by decide

/-! ### The commands: vectors of 95_test_vectors.md -/

/-- V-UNP-3 and, with OPND[95:56] set, V-UNP-9. -/
theorem test_unpack :
    respAfter 0x02070000_00000000_00123456_789ABCDE#128 = some 0x00020000_00000000_00002468_ACF13579#128 ∧
      respAfter 0x02070000_FFFFFFFF_FF123456_789ABCDE#128 = some 0x00020000_00000000_00002468_ACF13579#128 := by
  decide +kernel

/-- V-UNP-4, V-UNP-5, V-UNP-6: the edges of the 49 bits. -/
theorem test_unpack_edges :
    resultOf (.unpack 7#8 0x7F#96) = some 0#96 ∧ resultOf (.unpack 7#8 0x80#96) = some 1#96 ∧
      resultOf (.unpack 7#8 0x80000000000000#96) = some 0x1000000000000#96 := by decide +kernel

/-- P4 step 1 and the ignored OPND[95:12] of R138. -/
theorem test_golay :
    respAfter 0x03000000_00000000_00000000_00000123#128 = some 0x00030000_00000000_00000000_00085123#128 ∧
      resultOf (.golay 0x1123#96) = some 0x085123#96 := by decide +kernel

/-- V-GOL-3, V-GOL-4, V-GOL-6. -/
theorem test_golay_corners :
    resultOf (.golay 0x800#96) = some 0x571800#96 ∧ resultOf (.golay 0xFFF#96) = some 0x7FFFFF#96 ∧
      resultOf (.golay 0xAAA#96) = some 0x30BAAA#96 := by decide +kernel

/-- P4 step 2, V-PAR-3 and V-PAR-5. -/
theorem test_parity :
    respAfter 0x04000000_00000000_00000000_00085123#128 = some 0x00040000_00000000_00000000_00000001#128 ∧
      resultOf (.parity 0x800000#96) = some 1#96 ∧ resultOf (.parity 0x7FFFFF#96) = some 1#96 := by decide +kernel

/-- V-PAR-2, V-PAR-7, and bit 24 ignored (R139). -/
theorem test_parity_zero :
    resultOf (.parity 0xFFFFFF#96) = some 0#96 ∧ resultOf (.parity 0x885123#96) = some 0#96 ∧
      resultOf (.parity 0x1000000#96) = some 0#96 := by decide +kernel

/-- P1 step 2 (V-ASM-3). -/
theorem test_assemble :
    respAfter 0x05000000_00000000_00002468_ACF13579#128 =
      some 0x00050000_8851235E_A4560003_C4003579#128 := by decide +kernel

/-- V-ASM-2 and V-ASM-7. -/
theorem test_assemble_corners :
    resultOf (.assemble 0x1FFFFFFFFFFFF#96) = some 0xFFFFFF7FFFFF0007FF003FFF#96 ∧
      resultOf (.assemble 0x1595480400089#96) = some 0x9A6ACA0D2A40000100000089#96 := by decide +kernel

/-- P3 step 3 (V-SCR-3). -/
theorem test_scramble :
    respAfter 0x06000000_8851235E_A4560003_C4003579#128 =
      some 0x00060000_885123DD_90AC0003_C4003579#128 := by decide +kernel

/-- V-SCR-7: cells outside P pass through, the key bits of seed 0xFFF. -/
theorem test_scramble_all_ones :
    resultOf (.scramble 0xFFFFFFFFFFFFFFFFFFFFFFFF#96) = some 0xFFFFFFDE065FFFFFFFFFFFFF#96 := by decide +kernel

/-- P1 step 4 (V-INT-3, T_DEMO). -/
theorem test_interleave :
    respAfter 0x07000000_885123DD_90AC0003_C4003579#128 =
      some 0x00070000_00000088_5123BB21_58F13579#128 := by decide +kernel

/-- V-INT-4, V-INT-6 and V-INT-7 (T_DEMO): all ones, one cell, the pad alone. -/
theorem test_interleave_corners :
    resultOf (.interleave 0xFFFFFFFFFFFFFFFFFFFFFFFF#96) = some 0xFFFFFFFFFFFFFFFFFF#96 ∧
      resultOf (.interleave 0x800000000000000000000000#96) = some 0x800000000000000000#96 ∧
      resultOf (.interleave 0x000000800000000000000000#96) = some 0#96 := by decide +kernel

/-- P1 step 5 (V-ENC-3, T_DEMO). -/
theorem test_encode :
    respAfter 0x01070000_00000000_00123456_789ABCDE#128 =
      some 0x00010000_00000088_5123BB21_58F13579#128 := by decide +kernel

/-- V-ENC-2 and V-ENC-10 (T_DEMO). -/
theorem test_encode_corners :
    resultOf (.encode 7#8 0xFFFFFFFFFFFFFF#96) = some 0xFFFFFFBC0CBFFFFFFF#96 ∧
      resultOf (.encode 7#8 0x05555555555555#96) = some 0x5060558A14A6AAAAAA#96 := by decide +kernel

/-! ### Errors, reset, the assembler -/

/-- V-ERR-1, V-ERR-2, V-ERR-3. -/
theorem test_wrong_length :
    respAfter 0x01060000_00000000_00123456_789ABCDE#128 = some 0x01010000_00000000_00000000_00000000#128 ∧
      respAfter 0x02000000_00000000_00000000_00000000#128 = some 0x01020000_00000000_00000000_00000000#128 ∧
      respAfter 0x01FF0000_00000000_00123456_789ABCDE#128 = some 0x01010000_00000000_00000000_00000000#128 := by
  decide

/-- V-ERR-4 to V-ERR-9. -/
theorem test_illegal_words :
    respAfter 0#128 = some 0x02000000_00000000_00000000_00000000#128 ∧
      respAfter 0x09070000_00000000_00000000_00000000#128 = some 0x02090000_00000000_00000000_00000000#128 ∧
      respAfter 0xFF000000_00000000_00000000_00000000#128 = some 0x02FF0000_00000000_00000000_00000000#128 ∧
      respAfter 0x03010000_00000000_00000000_00000123#128 = some 0x02030000_00000000_00000000_00000000#128 ∧
      respAfter 0x01030001_00000000_00123456_789ABCDE#128 = some 0x02010000_00000000_00000000_00000000#128 ∧
      respAfter 0x01078000_00000000_00123456_789ABCDE#128 = some 0x02010000_00000000_00000000_00000000#128 := by
  decide

/-- V-RST-2: reset after a command. -/
theorem test_reset_action :
    step { demoState [.reset] with resp := mkResp 1#8 2#8 0#96 } = .next (demoState []) := rfl

/-- R83, R85: a commented line, a pseudo-instruction, an explicit LEN, `.word`. -/
theorem test_assembler :
    assembleProgram ["ENCODE     0x123456789ABCDE ; seven bytes".toList, "; nothing".toList,
      "UNPACK 6, 0x12".toList, "GOLAY 291".toList, ".word 0x08000000_00000000_00000000_00000000".toList] =
      some [0x01070000_00000000_00123456_789ABCDE#128, 0x02060000_00000000_00000000_00000012#128,
        0x03000000_00000000_00000000_00000123#128, 0x08000000_00000000_00000000_00000000#128] := by decide +kernel

/-- R83: an operand too large, a wrong number of operands, an unknown mnemonic, a malformed number. -/
theorem test_assembler_refuses :
    assembleProgram ["GOLAY 0x1000".toList] = none ∧ assembleProgram ["GOLAY".toList] = none ∧
      assembleProgram ["PARITY 1, 2".toList] = none ∧ assembleProgram ["DECODE 1".toList] = none ∧
      assembleProgram ["GOLAY 12x".toList] = none := by decide +kernel

/-- The first step after reset with a word placed runs that word, whatever PERM is. -/
theorem test_first_step_after_reset :
    step (State.reset.withFetchWord 128 0x03000000000000000000000000000000) =
      exec (.golay 0#96) State.reset := rfl

/-! ### Witnesses: states and operands that meet the hypotheses of the statements -/

/-- A legal word. -/
theorem witness_DecodedWordReencodes :
    decode 0x01FF0000_00000000_00000000_00000000#128 = .ok (.encode 0xFF#8 0#96) := rfl

/-- Each listed case at a boundary, and a word that is not listed. -/
theorem witness_IllegalWordsAreExactlyThoseListed :
    (demoState [.writeCmd 0#128]).host = .writeCmd 0#128 :: [] ∧ listedIllegal 0#128 ∧
      listedIllegal 0x08000000_00000000_00000000_00000000#128 ∧
      listedIllegal 0x01070001_00000000_00000000_00000000#128 ∧
      listedIllegal 0x03010000_00000000_00000000_00000000#128 ∧
      listedIllegal 0x07FF0000_00000000_00000000_00000000#128 ∧
      ¬ listedIllegal 0x02FF0000_00000000_00000000_00000000#128 := by
  refine ⟨rfl, ?_⟩
  unfold listedIllegal
  decide

theorem witness_StepRunsTheDecodedCommand :
    (demoState [.writeCmd 0x07000000_00000000_00000000_00000001#128]).host =
        .writeCmd 0x07000000_00000000_00000000_00000001#128 :: [] ∧
      decode 0x07000000_00000000_00000000_00000001#128 = .ok (.interleave 1#96) := ⟨rfl, rfl⟩

/-- One word for each clause: illegal, wrong length, right length, no length. -/
theorem witness_DecodingIsCheckedBeforeLength :
    (demoState [.writeCmd (mkCmd 1#8 3#8 1#16 0#96)]).host = .writeCmd (mkCmd 1#8 3#8 1#16 0#96) :: [] ∧
      (1#16 ≠ 0#16 ∨ (1#8).toNat = 0 ∨ 8 ≤ (1#8).toNat ∨ (3 ≤ (1#8).toNat ∧ 3#8 ≠ 0#8)) ∧
      ((2#8 = 0x01#8 ∨ 2#8 = 0x02#8) ∧ 8#8 ≠ 7#8) ∧ (1#8 = 0x01#8 ∨ 1#8 = 0x02#8) ∧
      (3 ≤ (7#8).toNat ∧ (7#8).toNat ≤ 7) := by decide

/-- A table that is refused and one that is accepted. -/
theorem witness_EveryStepGivesANextState : candidateG1.wf = false ∧ PermTable.demo.wf = true := by decide +kernel

theorem witness_IdleMachineStaysAsItIs : (demoState []).host = [] := rfl
theorem witness_ResetActionResetsRespOnly : (demoState [.reset]).host = .reset :: [] := rfl
theorem witness_RespReadHasNoSideEffect : (demoState [.readResp]).host = .readResp :: [] := rfl
theorem witness_ReadAfterWriteSeesThatResponse :
    (demoState [.writeCmd 5#128, .readResp]).host = .writeCmd 5#128 :: .readResp :: [] := rfl

theorem witness_CommandsChangeOnlyResp :
    exec (.golay 0#96) (demoState []) = .next (respond 3#8 (resultBits (golay 0#12)) (demoState [])) := rfl

theorem witness_ResponseDependsOnWordAndPermOnly :
    (demoState [.writeCmd 5#128, .reset]).host = .writeCmd 5#128 :: [.reset] ∧
      (demoState [.readResp, .reset]).host = .readResp :: [.reset] := ⟨rfl, rfl⟩

/-- Two matrices that differ in the pad alone agree on P. -/
theorem pad_agrees : agreeOnP (0#96) (BitVec.ofNat 96 (2 ^ 71)) := by
  have small : ∀ r, r < 4 → ∀ c, c < 24 → populated r c = true →
      cell (0#96) r c = cell (BitVec.ofNat 96 (2 ^ 71)) r c := by decide +kernel
  intro r c h
  have hr : r < 4 := by
    match r with
    | 0 => omega
    | 1 => omega
    | 2 => omega
    | 3 => omega
    | n + 4 => simp [populated] at h
  have hc : c < 24 := by
    match r with
    | 0 => simp [populated] at h; omega
    | 1 => simp [populated] at h; omega
    | 2 => simp [populated] at h; omega
    | 3 => simp [populated] at h; omega
    | n + 4 => omega
  exact small r hr c hc h

/-- For every clause two operands that differ. -/
theorem witness_UnreadOperandBitsAreIgnored :
    ((0x7F#96).extractLsb' 7 49 = (0#96).extractLsb' 7 49 ∧ 0x7F#96 ≠ 0#96) ∧
      ((0x1123#96).extractLsb' 0 12 = (0x123#96).extractLsb' 0 12 ∧ 0x1123#96 ≠ 0x123#96) ∧
      ((0x1000000#96).extractLsb' 0 24 = (0#96).extractLsb' 0 24 ∧ 0x1000000#96 ≠ 0#96) ∧
      ((BitVec.ofNat 96 (2 ^ 49)).extractLsb' 0 49 = (0#96).extractLsb' 0 49 ∧ BitVec.ofNat 96 (2 ^ 49) ≠ 0#96) ∧
      agreeOnP (0#96) (BitVec.ofNat 96 (2 ^ 71)) ∧ decode (mkCmd 0#8 0#8 0#16 0#96) = .error .reservedOpcode :=
  ⟨by decide, by decide, by decide, by decide, pad_agrees, rfl⟩

/-- The first and the last element. -/
theorem witness_UnpackTakesBytesMsbFirst :
    (operandBytes 0#96).length = 7 ∧ 0 < 49 ∧ 48 < 49 := by decide

/-- A wrong length, and a next state that reports it. -/
theorem witness_OnlyWrongLengthGivesLengthStatus :
    6#8 ≠ 7#8 ∧ exec (.unpack 6#8 0#96) (demoState []) =
        .next (raise .invalidInputLength 2#8 (demoState [])) ∧
      (raise .invalidInputLength 2#8 (demoState [])).resp.status = 0x01#8 := ⟨by decide, rfl, rfl⟩

/-- The first and the last entry of T, as 42_fec_field_encoder.md R133 lists them. -/
theorem witness_GolayIsLinear :
    0 < 12 ∧ 11 < 12 ∧ golayT.getD 0 0 = 0x2E3 ∧ golayT.getD 11 0 = 0x571 := by decide

/-- Two different data values whose codewords differ in exactly 7 bits (V-GOL-1, V-GOL-2). -/
theorem witness_GolayCodewordsKeepTheirDistance :
    0x000#12 ≠ 0x001#12 ∧ distance (golay 0x000#12) (golay 0x001#12) = 7 := by decide +kernel

/-- A word with three errors in the codeword of 0x123 (V-GOL-7). -/
theorem witness_GolayCodeIsPerfect : distance (0x085124#23) (golay 0x123#12) ≤ 3 := by decide +kernel

theorem witness_ParityDetectsEverySingleFlip : 0 < 24 ∧ 23 < 24 := by decide

/-- The boundaries of the check bits' range and of the four ranges. -/
theorem witness_AssemblePlacesEveryElement :
    (0 ≤ 10 ∧ 10 ≤ 10) ∧ (0 ≤ 11 ∧ 11 ≤ 11) ∧ (12 ≤ 12 ∧ 23 ≤ 23) ∧ (24 ≤ 24 ∧ 34 ≤ 34) ∧ (35 ≤ 35 ∧ 48 ≤ 48) := by decide

/-- The pad and the last unpopulated cells of rows 2 and 3. -/
theorem witness_UnpopulatedCellsAreZero :
    populated 1 0 = false ∧ populated 2 12 = false ∧ populated 3 9 = false ∧ 3 < 4 ∧ 12 < 24 := by decide

theorem witness_MatrixIsItsRows : 0 < 4 ∧ 3 < 4 ∧ 0 < 24 ∧ 23 < 24 := by decide

/-- The largest seed, the first and the last key. -/
theorem witness_KeyIsTheTopBit : 4095 < 2 ^ 12 ∧ 1 ≤ 1 ∧ 1 ≤ 23 ∧ 23 ≤ 23 := by decide

/-- Two vectors that agree on the first 12 elements and differ after them. -/
theorem witness_SeedIsTheC0Data :
    (∀ i, i ≤ 11 → (0#49).getMsbD i = (1#49).getMsbD i) ∧ 0#49 ≠ 1#49 := by decide

theorem witness_KeystreamsAreNeverBlank : 0 < 4096 ∧ 4095 < 4096 ∧ keystream 4095 = keystream 4095 :=
  ⟨by decide, by decide, rfl⟩

theorem witness_KeystreamComplement : 0x800 < 4096 ∧ 4095 < 4096 := by decide

theorem witness_InterleavePlacesEveryPair : 0 < 36 ∧ 35 < 36 := by decide

theorem witness_InterleaveCommandWritesTheStream : 0 < 36 ∧ 35 < 36 := by decide

/-- The first and the last populated cell, and a position that holds the first. -/
theorem witness_InterleaveIsABijection : populated 0 0 = true ∧ populated 3 23 = true ∧ 71 < 72 := by decide

theorem witness_UnpopulatedCellsNeverReachTheOutput :
    agreeOnP (0#96) (BitVec.ofNat 96 (2 ^ 71)) ∧ 0#96 ≠ BitVec.ofNat 96 (2 ^ 71) := ⟨pad_agrees, by decide⟩

/-- Nine bytes, the first and the last; seven bytes, the first and the last. -/
theorem witness_ByteStringsAreBigEndian :
    (List.replicate 9 0xA5#8).length = 9 ∧ 0 < 9 ∧ 8 < 9 ∧ 0 < 7 ∧ 6 < 7 := by decide

theorem witness_EncodeRunsTheFourStages : 0#8 ≠ 7#8 ∧ 255#8 ≠ 7#8 ∧ 7#8 = 7#8 := by decide

/-- Two vectors for each lane that agree on its field and differ elsewhere. -/
theorem witness_LanesEqualTheSequentialPipeline :
    (∀ i, i ≤ 11 → (0#49).getMsbD i = (1#49).getMsbD i) ∧
      (∀ i, i ≤ 23 → 12 ≤ i → (0#49).getMsbD i = (1#49).getMsbD i) ∧
      (∀ i, i ≤ 34 → 24 ≤ i → (0#49).getMsbD i = (1#49).getMsbD i) ∧
      (∀ i, i ≤ 48 → 35 ≤ i → (0#49).getMsbD i = (0x1000000000000#49).getMsbD i) ∧
      0#49 ≠ 1#49 ∧ 0#49 ≠ 0x1000000000000#49 := by decide

/-- Two operands that differ in an unread bit give the same response. -/
theorem witness_EncodeIsInjective :
    exec (.encode 7#8 0#96) (demoState []) =
        .next (respond 1#8 (resultBytes (encodeFrame (demoState []).perm (operandBytes 0#96))) (demoState [])) ∧
      exec (.encode 7#8 1#96) (demoState []) =
        .next (respond 1#8 (resultBytes (encodeFrame (demoState []).perm (operandBytes 1#96))) (demoState [])) ∧
      unpack (operandBytes 0#96) = unpack (operandBytes 1#96) := ⟨rfl, rfl, by decide +kernel⟩

/-- A state that is not the reset state, with a response and a read behind it. -/
def afterGolay : State :=
  { demoState [.readResp] with
    resp := mkResp 0#8 3#8 0x085123#96, seen := [0x01010000_00000000_00000000_00000000#128] }

theorem witness_EveryStepKeepsRespLegal : afterGolay.Inv ∧
    step afterGolay = .next (readResp { afterGolay with host := [] }) := by
  refine ⟨⟨by decide +kernel, ?_⟩, rfl⟩
  have all : (afterGolay.seen.all legalRead) = true := by decide +kernel
  exact fun w hw => List.all_eq_true.mp all w hw

theorem witness_OnlyTheLastCommandCounts :
    (demoState [.writeCmd 0#128, .reset, .readResp, .writeCmd 5#128]).host =
      [.writeCmd 0#128, .reset, .readResp] ++ [.writeCmd 5#128] := rfl

theorem witness_ReachableStatesAreSafe : Reachable (demoState [.writeCmd 5#128]) :=
  .place (demoState []) (.writeCmd 5#128) (.start (demoState []).perm)

/-- Two instances that share a PERM: number 0 is one of them, number 2 is none. -/
theorem witness_InstancesDoNotDisturbEachOther :
    Platform.shares (demoState []).perm { units := [demoState [], demoState [.reset]] } ∧ 0 ≠ 1 ∧
      [demoState [], demoState [.reset]][0]? = some (demoState []) ∧
      [demoState [], demoState [.reset]][2]? = none := by
  refine ⟨?_, by decide, rfl, rfl⟩
  intro s hs
  simp only [List.mem_cons, List.not_mem_nil, or_false] at hs
  rcases hs with rfl | rfl <;> rfl

/-- Each range at its boundary, on both sides, and an illegal word that an accepted line writes. -/
theorem witness_AssemblerWritesLegalWords :
    ((255 ≤ 255 ∧ 2 ^ 56 - 1 < 2 ^ 56) ∧ ¬ (256 ≤ 255 ∧ 0 < 2 ^ 56) ∧ ¬ (7 ≤ 255 ∧ 2 ^ 56 < 2 ^ 56)) ∧
      (0xFFF ≤ 0xFFF ∧ ¬ 0x1000 ≤ 0xFFF) ∧ (0xFFFFFF ≤ 0xFFFFFF ∧ ¬ 0x1000000 ≤ 0xFFFFFF) ∧
      (2 ^ 49 - 1 < 2 ^ 49 ∧ ¬ 2 ^ 49 < 2 ^ 49) ∧ (2 ^ 96 - 1 < 2 ^ 96 ∧ ¬ 2 ^ 96 < 2 ^ 96) ∧
      (2 ^ 128 - 1 < 2 ^ 128 ∧ 2 ^ 128 ≤ 2 ^ 128) ∧
      asmLine (.word 0) = some 0#128 ∧ decode 0#128 = .error .reservedOpcode := by
  refine ⟨by decide, by decide, by decide, by decide, by decide, by decide, rfl, rfl⟩

end Sys2Proof.Tests
end

section
/-! SUPPORT. Several instances of the CORE (60_exceptions.md R215): every step gives a next state and keeps PERM,
so a step of a platform only replaces the instance that took it. -/

namespace Sys2Proof.Machine

open Sys2Proof

/-- A write of CMD gives a next state that differs from the old one in RESP only, whether the word is legal or
not (10_state.md R34; 60_exceptions.md R209). -/
theorem runCommand_next (w : CmdWord) (s : State) : ∃ r, runCommand w s = .next (s.setResp r) := by
  rcases runCommand_cases w s with ⟨_, -, h⟩ | ⟨i, -, h⟩
  · exact ⟨_, h⟩
  · obtain ⟨r, hr⟩ := exec_next i s
    exact ⟨r, h.trans hr⟩

/-- Every step gives a next state, and none writes PERM (10_state.md R37; 60_exceptions.md R216). -/
theorem step_next_keeps_perm (s : State) : ∃ s', step s = .next s' ∧ s'.perm = s.perm := by
  rcases step_cases s with ⟨-, h⟩ | ⟨w, rest, -, h⟩ | ⟨rest, -, h⟩ | ⟨rest, -, h⟩
  · exact ⟨_, h, rfl⟩
  · obtain ⟨r, hr⟩ := runCommand_next w { s with host := rest }
    exact ⟨_, h.trans hr, rfl⟩
  · exact ⟨_, h, rfl⟩
  · exact ⟨_, h, rfl⟩

namespace Platform

/-- `stepAt_cases` without the outcomes that no step has, and with what becomes of PERM. -/
theorem stepAt_next (k : Nat) (P : Platform) :
    (P.units[k]? = none ∧ P.stepAt k = .next P) ∨
      ∃ s s', P.units[k]? = some s ∧ step s = .next s' ∧ s'.perm = s.perm ∧
        P.stepAt k = .next { units := P.units.set k s' } := by
  rcases stepAt_cases k P with h | ⟨s, s', hk, hs, h⟩ | ⟨_, r, -⟩ | ⟨s, _, -, hs, -⟩
  · exact .inl h
  · obtain ⟨t, ht, hperm⟩ := step_next_keeps_perm s
    obtain rfl : t = s' := by simpa [hs] using ht.symm
    exact .inr ⟨s, t, hk, hs, hperm, h⟩
  · exact nomatch r
  · obtain ⟨t, ht, -⟩ := step_next_keeps_perm s
    simp [hs] at ht

/-- An instance that a platform holds has the PERM its instances share. -/
theorem shares.perm_eq {P : Platform} {p : Perm} {k : Nat} {s : State} (h : P.shares p)
    (hk : P.units[k]? = some s) : s.perm = p :=
  h s (List.mem_of_getElem? hk)

/-- PERM stays shared when a state with that PERM takes the place of an instance. -/
theorem shares.set {P : Platform} {p : Perm} {s : State} (h : P.shares p) (k : Nat) (hs : s.perm = p) :
    shares p { units := P.units.set k s } := by
  intro t ht
  rcases List.mem_or_eq_of_mem_set ht with ht | rfl
  · exact h t ht
  · exact hs

/-- The instances of a reset platform share the configured PERM (60_exceptions.md R215). -/
theorem reset_shares (n : Nat) : (Platform.reset n).shares Config.perm := by
  intro s hs
  rw [List.eq_of_mem_replicate hs, reset_perm]

end Platform

/-- Settles O53: a step of instance k replaces entry k of the list by the next state of that instance's own step,
which keeps its PERM. -/
theorem instancesDoNotDisturbEachOther : Obligations.InstancesDoNotDisturbEachOther := by
  refine ⟨fun P p k hp => ?_, fun n => ⟨List.length_replicate, Platform.reset_shares n⟩⟩
  rcases Platform.stepAt_next k P with ⟨hk, h⟩ | ⟨s, s', hk, hs, hperm, h⟩
  · exact ⟨P, h, hp, rfl, by simp [hk], fun _ => rfl, fun _ _ => rfl⟩
  · have hset : (P.units.set k s')[k]? = some s' := by simp [List.getElem?_set_self', hk]
    refine ⟨_, h, hp.set k (hperm.trans (hp.perm_eq hk)), List.length_set, ?_, by simp [hk],
      fun j hj => List.getElem?_set_ne hj.symm⟩
    intro t ht
    obtain rfl : s = t := by simpa [hk] using ht
    exact ⟨s', hs, hset⟩

end Sys2Proof.Machine
end

section
/-! SUPPORT. RESP stays legal: every result lies in the range of its command, a word read from RESP holds the
fields of RESP, and the response to a CMD write is a legal value that depends on the word and PERM alone
(10_state.md R35; 30_encoding.md R76, R82; 60_exceptions.md R200 to R204). -/

namespace Sys2Proof.Machine

open Sys2Proof

/-- A result of n bits is below 2^n (30_encoding.md R82). -/
theorem resultBits_toNat_lt {n : Nat} (x : BitVec n) : (resultBits x).toNat < 2 ^ n :=
  calc (x.setWidth 96).toNat = x.toNat % 2 ^ 96 := BitVec.toNat_setWidth 96 x
    _ ≤ x.toNat := Nat.mod_le _ _
    _ < 2 ^ n := x.isLt

/-- The nine bytes of the interleaver fill RESULT[71:0] only (20_memory.md R52). -/
theorem resultBytes_interleave_toNat_lt (p : Perm) (M : FrameMatrix) :
    (resultBytes (interleave p M)).toNat < 2 ^ 72 := by
  refine Nat.lt_pow_two_of_testBit _ fun i hi => ?_
  have outside : ¬ i < 8 * 9 := by omega
  rw [BitVec.testBit_toNat, interleave_eq_stream, resultBytes_getLsbD _ 9 (by omega)]
  simp [outside]

/-- The data of a codeword stands in the low 12 bits of RESULT (42_fec_field_encoder.md R131). -/
theorem resultBits_golay_data (d : BitVec 12) : (resultBits (golay d)).extractLsb' 0 12 = d := by
  refine BitVec.eq_of_getLsbD_eq fun i hi => ?_
  have h96 : i < 96 := by omega
  simp [resultBits, golay_getLsbD, hi, h96]

/-- Assembly leaves every cell outside P at 0 (42_fec_field_encoder.md R146). -/
theorem cell_assemble_unpopulated (v : Ambe49) {r c : Nat} (hr : r < 4) (hc : c < 24)
    (h : populated r c = false) : cell (assemble v) r c = false := by
  rw [cell_assemble v hr hc]
  match r with
  | 0 =>
    have outside : ¬ c ≤ 23 := of_decide_eq_false h
    omega
  | 1 =>
    have outside : ¬ (1 ≤ c ∧ c ≤ 23) := of_decide_eq_false h
    exact if_neg (by omega)
  | 2 =>
    have outside : ¬ (13 ≤ c ∧ c ≤ 23) := of_decide_eq_false h
    exact if_neg (by omega)
  | 3 =>
    have outside : ¬ (10 ≤ c ∧ c ≤ 23) := of_decide_eq_false h
    exact if_neg (by omega)

/-- What GOLAY writes is a codeword. -/
theorem okResult_golay (d : BitVec 12) : okResult (3#8).toNat (resultBits (golay d)) = true := by
  simp [okResult, resultBits_golay_data]

/-- What ASSEMBLE writes is 0 outside P. -/
theorem okResult_assemble (v : Ambe49) : okResult (5#8).toNat (assemble v) = true := by
  refine List.all_eq_true.mpr fun n hn => ?_
  have hn : n < 96 := List.mem_range.mp hn
  cases h : populated (n / 24) (n % 24) with
  | true => rfl
  | false => simp [cell_assemble_unpopulated v (by omega : n / 24 < 4) (by omega) h]

/-- A response with STATUS OK is legal when its result is (60_exceptions.md R205). -/
theorem legal_mkResp_ok {opc : BitVec 8} {x : BitVec 96} (h : okResult opc.toNat x = true) :
    (mkResp statusOk opc x).legal = true := h

/-- The answer to an illegal word is legal, whatever its OPC (60_exceptions.md R202). -/
theorem legal_mkResp_illegalCommand (opc : BitVec 8) :
    (mkResp statusIllegalCommand opc 0#96).legal = true := rfl

/-- The reset value of RESP is legal (10_state.md R41). -/
theorem legal_reset : Resp.reset.legal = true := rfl

/-- A host read of RESP returns the fields of RESP with RZERO 0 (10_state.md R35); the word is laid out as a
command word is. -/
theorem fields_of_word (r : Resp) : r.word.extractLsb' 96 16 = 0#16 ∧ Resp.ofWord r.word = r := by
  obtain ⟨status, ropc, result⟩ := r
  obtain ⟨hstatus, hropc, hrzero, hresult⟩ := Laws.EncodedFields.fields_of_mkCmd status ropc 0#16 result
  exact ⟨hrzero, Resp.mk.injEq .. ▸ ⟨hstatus, hropc, hresult⟩⟩

/-- The word of a legal RESP is a legal read. -/
theorem legalRead_word {r : Resp} (h : r.legal = true) : legalRead r.word = true := by
  obtain ⟨hzero, hfields⟩ := fields_of_word r
  simp [legalRead, hzero, hfields, h]

/-- To each command and PERM belongs one legal response, which the command writes from every state with that
PERM (20_memory.md R59; 30_encoding.md R82). -/
theorem exec_response (i : Instr) (p : Perm) :
    ∃ r : Resp, r.legal = true ∧ ∀ s : State, s.perm = p → exec i s = .next (s.setResp r) := by
  cases i with
  | encode len opnd =>
    by_cases hlen : len = 7#8
    · refine ⟨mkResp statusOk 1#8 (resultBytes (encodeFrame p (operandBytes opnd))),
        legal_mkResp_ok (decide_eq_true (resultBytes_interleave_toNat_lt p _)), ?_⟩
      rintro s rfl
      simp [exec, execEncode, hlen, respond]
    · exact ⟨mkResp statusInvalidInputLength 1#8 0#96, rfl,
        fun s _ => by simp [exec, execEncode, hlen, raise, CoreError.code]⟩
  | unpack len opnd =>
    by_cases hlen : len = 7#8
    · exact ⟨mkResp statusOk 2#8 (resultBits (unpack (operandBytes opnd))),
        legal_mkResp_ok (decide_eq_true (resultBits_toNat_lt _)),
        fun s _ => by simp [exec, execUnpack, hlen, respond]⟩
    · exact ⟨mkResp statusInvalidInputLength 2#8 0#96, rfl,
        fun s _ => by simp [exec, execUnpack, hlen, raise, CoreError.code]⟩
  | golay opnd => exact ⟨_, legal_mkResp_ok (okResult_golay (operandData opnd)), fun _ _ => rfl⟩
  | parity opnd =>
    exact ⟨_, legal_mkResp_ok (opc := 4#8) (decide_eq_true
      (resultBits_toNat_lt (BitVec.ofBool (parity (operandWord opnd))))), fun _ _ => rfl⟩
  | assemble opnd => exact ⟨_, legal_mkResp_ok (okResult_assemble (operandVector opnd)), fun _ _ => rfl⟩
  | scramble opnd => exact ⟨_, legal_mkResp_ok (opc := 6#8) rfl, fun _ _ => rfl⟩
  | interleave opnd =>
    refine ⟨mkResp statusOk 7#8 (resultBytes (interleave p (operandMatrix opnd))),
      legal_mkResp_ok (decide_eq_true (resultBytes_interleave_toNat_lt p _)), ?_⟩
    rintro s rfl
    rfl

/-- To each word, legal or not, and PERM belongs one legal response, which a CMD write leaves from every state
with that PERM (10_state.md R34; 20_memory.md R59). -/
theorem runCommand_response (w : CmdWord) (p : Perm) :
    ∃ r : Resp, r.legal = true ∧ ∀ s : State, s.perm = p → runCommand w s = .next (s.setResp r) := by
  unfold runCommand
  cases decode w with
  | error e => exact ⟨_, legal_mkResp_illegalCommand (opcField w), fun _ _ => rfl⟩
  | ok i => exact exec_response i p

/-- The step that performs a CMD write is the run of its word. -/
theorem step_writeCmd {s : State} {w : CmdWord} {rest : List HostAction} (h : s.host = .writeCmd w :: rest) :
    step s = runCommand w { s with host := rest } := by
  simp [step, takeAction, h]

/-- Settles O49: a CMD write leaves a legal response, a read adds the word of a legal RESP to the words read, and
the reset value is legal. -/
theorem everyStepKeepsRespLegal : Obligations.EveryStepKeepsRespLegal := by
  rintro s t ⟨hresp, hseen⟩ hstep
  rcases step_cases s with ⟨-, h⟩ | ⟨w, rest, -, h⟩ | ⟨rest, -, h⟩ | ⟨rest, -, h⟩
  · obtain rfl := Host.Outcome.next.inj (h.symm.trans hstep)
    exact ⟨hresp, hseen⟩
  · obtain ⟨r, hr, hrun⟩ := runCommand_response w s.perm
    obtain rfl := Host.Outcome.next.inj ((h.trans (hrun _ rfl)).symm.trans hstep)
    exact ⟨hr, hseen⟩
  · obtain rfl := Host.Outcome.next.inj (h.symm.trans hstep)
    refine ⟨hresp, fun w hw => ?_⟩
    rcases List.mem_append.mp hw with hw | hw
    · exact hseen w hw
    · rw [List.mem_singleton.mp hw]
      exact legalRead_word hresp
  · obtain rfl := Host.Outcome.next.inj (h.symm.trans hstep)
    exact ⟨legal_reset, hseen⟩

/-- Settles O48: the reset value of RESP is legal, and no word has been read. -/
theorem resetMeetsTheInvariant : Obligations.ResetMeetsTheInvariant :=
  ⟨legal_reset, fun _ hw => absurd hw List.not_mem_nil⟩

end Sys2Proof.Machine
end

section
/-! SUPPORT. Runs of host actions: every step takes one action off the host's list and keeps PERM and the words
read (10_state.md R37, R42; 20_memory.md R60; 60_exceptions.md R216). -/

namespace Sys2Proof.Machine

open Sys2Proof

/-- What every step keeps, and that it takes the next action off the list. -/
theorem step_frame (s : State) :
    ∃ t, step s = .next t ∧ t.perm = s.perm ∧ t.host = s.host.tail ∧ s.seen <+: t.seen := by
  rcases step_cases s with ⟨hs, h⟩ | ⟨w, rest, hs, h⟩ | ⟨rest, hs, h⟩ | ⟨rest, hs, h⟩
  · exact ⟨s, h, rfl, by rw [hs, List.tail_nil], List.prefix_rfl⟩
  · obtain ⟨r, hr⟩ := runCommand_next w { s with host := rest }
    exact ⟨_, h.trans hr, rfl, by rw [hs]; rfl, List.prefix_rfl⟩
  · exact ⟨_, h, rfl, by rw [hs]; rfl, List.prefix_append _ _⟩
  · exact ⟨_, h, rfl, by rw [hs]; rfl, List.prefix_rfl⟩

/-- A run goes on from the state after its first step. -/
theorem runFor_succ {s t : State} (h : step s = .next t) (n : Nat) : runFor (n + 1) s = runFor n t := by
  simp [runFor, h]

/-- As many steps as there are actions in front of the list perform them all; the run goes on from a state with
the rest of the list and the same PERM. -/
theorem runFor_past_actions (before rest : List HostAction) (s : State) (h : s.host = before ++ rest) :
    ∃ t, t.host = rest ∧ t.perm = s.perm ∧ ∀ n, runFor (before.length + n) s = runFor n t := by
  induction before generalizing s with
  | nil => exact ⟨s, h, rfl, fun n => by rw [List.length_nil, Nat.zero_add]⟩
  | cons a before ih =>
    obtain ⟨u, hu, hperm, hhost, -⟩ := step_frame s
    obtain ⟨t, ht, htperm, hrun⟩ := ih u (by rw [hhost, h]; rfl)
    refine ⟨t, ht, htperm.trans hperm, fun n => ?_⟩
    rw [List.length_cons, Nat.add_right_comm, runFor_succ hu, hrun]

/-- Settles O50, by induction on the number of steps. -/
theorem runsNeverChangePerm : Obligations.RunsNeverChangePerm := by
  intro n
  induction n with
  | zero => exact fun s => ⟨s, rfl, rfl, List.prefix_rfl⟩
  | succ n ih =>
    intro s
    obtain ⟨u, hu, hperm, -, hseen⟩ := step_frame s
    obtain ⟨t, ht, htperm, htseen⟩ := ih u
    exact ⟨t, (runFor_succ hu n).trans ht, htperm.trans hperm, hseen.trans htseen⟩

/-- Settles O51: the actions before the last CMD write leave PERM as it was, and the response to that write is the
one of its word and PERM. -/
theorem onlyTheLastCommandCounts : Obligations.OnlyTheLastCommandCounts := by
  intro s before w hs
  obtain ⟨m, hm, hperm, hrun⟩ := runFor_past_actions before [.writeCmd w] s hs
  obtain ⟨r, -, hr⟩ := runCommand_response w s.perm
  have last : step m = .next (State.setResp { m with host := [] } r) :=
    (step_writeCmd hm).trans (hr _ hperm)
  exact ⟨_, _, (hrun 1).trans (runFor_succ last 0), (step_writeCmd rfl).trans (hr _ rfl), rfl, rfl, hperm⟩

/-- Settles O6: the run of a word that decodes is the command's own `exec`. -/
theorem stepRunsTheDecodedCommand : Obligations.StepRunsTheDecodedCommand := by
  intro s w rest i hs hw
  rw [step_writeCmd hs, runCommand, hw]

/-- Settles O12: the step takes the read off the list and answers it. -/
theorem respReadHasNoSideEffect : Obligations.RespReadHasNoSideEffect := by
  intro s rest hs
  simp [step, takeAction, hs, readResp]

/-- Settles O15: every command writes RESP and nothing else. -/
theorem commandsChangeOnlyResp : Obligations.CommandsChangeOnlyResp := by
  intro i s t h
  obtain ⟨r, hr⟩ := exec_next i s
  obtain rfl := Host.Outcome.next.inj (hr.symm.trans h)
  exact ⟨rfl, rfl, rfl⟩

/-- Settles O10: the reset state's fields and their word are closed values. -/
theorem resetGivesNoResult : Obligations.ResetGivesNoResult := ⟨rfl, rfl, rfl, rfl⟩

end Sys2Proof.Machine
end

section
/-! SUPPORT. The 96-bit value of a matrix as its four rows (10_state.md R36). -/

namespace Sys2Proof.Machine

open Sys2Proof

/-- A cell is the bit of the matrix's value at 95 less its flat index. -/
theorem cell_eq_getLsbD (M : FrameMatrix) {r c : Nat} (hr : r < 4) (hc : c < 24) :
    cell M r c = M.getLsbD (95 - (24 * r + c)) := by
  have h : 24 * r + c < 96 := by omega
  simp [cell, BitVec.getMsbD, h]

/-- Row r is 24 neighbouring bits of the matrix's value, from bit `72 - 24r` up. -/
theorem rowval_eq_extractLsb' (M : FrameMatrix) {r start : Nat} (h : 24 * r + start = 72) :
    rowval M r = M.extractLsb' start 24 := by
  refine BitVec.eq_of_getLsbD_eq fun i hi => ?_
  have column : 23 - (23 - i) = i := by omega
  have position : 95 - (24 * r + (23 - i)) = start + i := by omega
  have row := rowval_getLsbD M r (23 - i) (by omega)
  rw [column, cell_eq_getLsbD M (by omega) (by omega), position] at row
  simpa [hi] using row

/-- Settles O31: the four rows are neighbouring 24-bit parts of the value, row 0 at the top. -/
theorem matrixIsItsRows : Obligations.MatrixIsItsRows := by
  refine fun M => ⟨?_, fun r c hr hc => (rowval_getLsbD M r c hc).trans (cell_eq_getLsbD M hr hc)⟩
  rw [rowval_eq_extractLsb' M (r := 0) (start := 72) rfl, rowval_eq_extractLsb' M (r := 1) (start := 48) rfl,
    rowval_eq_extractLsb' M (r := 2) (start := 24) rfl, rowval_eq_extractLsb' M (r := 3) (start := 0) rfl,
    BitVec.extractLsb'_append_extractLsb'_eq_extractLsb' (start₂ := 72) (start₁ := 48) rfl,
    BitVec.extractLsb'_append_extractLsb'_eq_extractLsb' (start₂ := 48) (start₁ := 24) rfl,
    BitVec.extractLsb'_append_extractLsb'_eq_extractLsb' (start₂ := 24) (start₁ := 0) rfl]
  exact BitVec.extractLsb'_eq_self.symm

end Sys2Proof.Machine
end

section
/-! SUPPORT. What a CMD write leaves in RESP, a read after it, and byte strings in registers (20_memory.md R52,
R59, R60). -/

namespace Sys2Proof.Machine

open Sys2Proof

/-- To each PERM and command word belongs one response, which a CMD write of the word leaves in RESP, from every
state with that PERM (20_memory.md R59). -/
theorem exists_response_function :
    ∃ f : Perm → CmdWord → Resp, ∀ (s : State) (w : CmdWord), runCommand w s = .next (s.setResp (f s.perm w)) := by
  choose f _ hf using fun (p : Perm) (w : CmdWord) => runCommand_response w p
  exact ⟨f, fun s w => hf s.perm w s rfl⟩

/-- Settles O16: the step that performs a CMD write runs its word, whose response is a function of PERM and the
word; a read keeps RESP and PERM. -/
theorem responseDependsOnWordAndPermOnly : Obligations.ResponseDependsOnWordAndPermOnly := by
  obtain ⟨f, hf⟩ := exists_response_function
  refine ⟨⟨f, fun s w rest hs => ?_⟩, fun s rest hs => ?_⟩
  · exact (step_writeCmd hs).trans (hf _ w)
  · exact ⟨_, respReadHasNoSideEffect s rest hs, rfl, rfl⟩

/-- The command of an opcode number has that opcode (30_encoding.md R77). -/
theorem opc_of_commandOf {opc len : BitVec 8} {opnd : Operand} {i : Instr}
    (h : commandOf opc.toNat len opnd = some i) : i.opc = opc := by
  refine BitVec.eq_of_toNat_eq ?_
  generalize opc.toNat = n at h ⊢
  unfold commandOf at h
  split at h <;> cases h <;> rfl

/-- A word decodes to a command of its own OPC field (30_encoding.md R77, R78). -/
theorem opc_of_decode {w : CmdWord} {i : Instr} (h : decode w = .ok i) : i.opc = opcField w := by
  unfold decode at h
  split at h
  · cases h
  · next j hj =>
    obtain rfl : j = i := by
      split_ifs at h
      exact Except.ok.inj h
    exact opc_of_commandOf hj

/-- ROPC of the response to a word is the word's OPC field, whether the word is legal or not (30_encoding.md R75;
60_exceptions.md R202). -/
theorem runCommand_ropc (w : CmdWord) (s : State) :
    ∃ r : Resp, r.ropc = opcField w ∧ runCommand w s = .next (s.setResp r) := by
  rcases runCommand_cases w s with ⟨_, -, h⟩ | ⟨i, hi, h⟩
  · exact ⟨_, rfl, h⟩
  · rcases exec_sets_resp i s with ⟨x, hx⟩ | ⟨-, -, hx⟩
    · exact ⟨_, opc_of_decode hi, h.trans hx⟩
    · exact ⟨_, opc_of_decode hi, h.trans hx⟩

/-- Settles O13: the write leaves a response with the word's ROPC, and the read that follows returns its word. -/
theorem readAfterWriteSeesThatResponse : Obligations.ReadAfterWriteSeesThatResponse := by
  intro s w rest hs
  obtain ⟨r, hropc, hr⟩ := runCommand_ropc w { s with host := .readResp :: rest }
  exact ⟨_, _, (step_writeCmd hs).trans hr, respReadHasNoSideEffect _ rest rfl, hropc, rfl, rfl, rfl⟩

/-- A byte string of at most 12 bytes lies big-endian in RESULT: byte k of m stands above the m - 1 - k bytes that
follow it (20_memory.md R52). -/
theorem resultBytes_byte (out : List Byte) (hlen : out.length ≤ 12) {k : Nat} (hk : k < out.length) :
    (resultBytes out).extractLsb' (8 * (out.length - 1 - k)) 8 = out.getD k 0#8 := by
  have hout : (List.range out.length).map (fun j => out.getD j 0#8) = out :=
    List.ext_getElem (by simp) fun j _ hj => by simp [hj]
  refine BitVec.eq_of_getLsbD_eq fun i hi => ?_
  have inside : 8 * (out.length - 1 - k) + i < 8 * out.length := by omega
  have byte : out.length - 1 - (8 * (out.length - 1 - k) + i) / 8 = k := by omega
  have bit : (8 * (out.length - 1 - k) + i) % 8 = i := by omega
  have h := resultBytes_getLsbD (fun j => out.getD j 0#8) out.length hlen (8 * (out.length - 1 - k) + i)
  rw [hout, byte, bit] at h
  simpa [hi, inside] using h

/-- Settles O43: of nine bytes in RESULT, byte k stands above the 8 - k that follow it; the operand's bytes are cut
at their places. -/
theorem byteStringsAreBigEndian : Obligations.ByteStringsAreBigEndian := by
  refine ⟨fun out k hlen hk => ?_, fun opnd k hk => ?_⟩
  · have place : 8 * (out.length - 1 - k) = 64 - 8 * k := by omega
    rw [← place]
    exact resultBytes_byte out (by omega) (by omega)
  · simp [operandBytes, hk]

end Sys2Proof.Machine
end

section
/-! SUPPORT. The command word, its fields and the decoder (30_encoding.md R70 to R79): the word is the sum of its
fields and the fields determine it; a word decodes to a command exactly when its fields are that command's. -/

namespace Sys2Proof.Machine

open Sys2Proof Sys2Proof.Claims

/-- Appending puts the first value above the second. -/
theorem toNat_append_eq_mul_add {m n : Nat} (x : BitVec m) (y : BitVec n) :
    (x ++ y).toNat = x.toNat * 2 ^ n + y.toNat := by
  rw [BitVec.toNat_append, ← Nat.shiftLeft_add_eq_or_of_lt y.isLt, Nat.shiftLeft_eq]

/-- The value of a command word (30_encoding.md R70). -/
theorem mkCmd_toNat (opc len : BitVec 8) (rsvd : BitVec 16) (opnd : Operand) :
    (mkCmd opc len rsvd opnd).toNat =
      opc.toNat * 2 ^ 120 + len.toNat * 2 ^ 112 + rsvd.toNat * 2 ^ 96 + opnd.toNat := by
  simp only [mkCmd, toNat_append_eq_mul_add]
  ring

/-- A word is made of its four fields. -/
theorem mkCmd_fields (w : CmdWord) : mkCmd (opcField w) (lenField w) (rsvdField w) (opndField w) = w := by
  unfold mkCmd opcField lenField rsvdField opndField
  rw [BitVec.extractLsb'_append_extractLsb'_eq_extractLsb' (start₂ := 120) (start₁ := 112) rfl,
    BitVec.extractLsb'_append_extractLsb'_eq_extractLsb' (start₂ := 112) (start₁ := 96) rfl,
    BitVec.extractLsb'_append_extractLsb'_eq_extractLsb' (start₂ := 96) (start₁ := 0) rfl]
  exact BitVec.extractLsb'_eq_self

/-- The fields of a command's word (30_encoding.md R70, R73). -/
theorem fields_of_encode (i : Instr) :
    opcField (encode i) = i.opc ∧ lenField (encode i) = i.len ∧ rsvdField (encode i) = 0#16 ∧
      opndField (encode i) = i.opnd :=
  Laws.EncodedFields.fields_of_mkCmd i.opc i.len 0#16 i.opnd

/-- Settles O3: the word is its fields one above the other, and cutting at their places gives them back. -/
theorem commandWordIsTheFieldSum : Obligations.CommandWordIsTheFieldSum := fun opc len rsvd opnd =>
  ⟨mkCmd_toNat opc len rsvd opnd, Laws.EncodedFields.fields_of_mkCmd opc len rsvd opnd⟩

/-- A command is the one of its own opcode, LEN and OPND (30_encoding.md R77). -/
theorem commandOf_self (i : Instr) : commandOf i.opc.toNat i.len i.opnd = some i := by
  cases i <;> rfl

/-- The command of an opcode keeps OPND, and keeps LEN where it may vary (30_encoding.md R72, R74). -/
theorem len_opnd_of_commandOf {n : Nat} {len : BitVec 8} {opnd : Operand} {i : Instr}
    (h : commandOf n len opnd = some i) : i.len = (if 3 ≤ n then 0#8 else len) ∧ i.opnd = opnd := by
  unfold commandOf at h
  split at h <;> cases h <;> exact ⟨rfl, rfl⟩

/-- The opcodes of the map are 1 to 7 (30_encoding.md R77). -/
theorem exists_commandOf_iff {n : Nat} {len : BitVec 8} {opnd : Operand} :
    (∃ i, commandOf n len opnd = some i) ↔ 1 ≤ n ∧ n ≤ 7 := by
  constructor
  · rintro ⟨i, h⟩
    unfold commandOf at h
    split at h <;> cases h <;> decide
  · rintro ⟨h1, h7⟩
    interval_cases n <;> exact ⟨_, rfl⟩

/-- The three checks of decoding (30_encoding.md R78). -/
theorem decode_eq_ok_iff_checks {w : CmdWord} {i : Instr} :
    decode w = .ok i ↔ commandOf (opcField w).toNat (lenField w) (opndField w) = some i ∧
      rsvdField w = 0#16 ∧ (3 ≤ (opcField w).toNat → lenField w = 0#8) := by
  unfold decode
  split
  · next h => simp [h]
  · next j h =>
    split_ifs with hrsvd hlen
    · simp [hrsvd]
    · simp [hlen]
    · have hzero : 3 ≤ (opcField w).toNat → lenField w = 0#8 := fun h3 => not_not.mp (not_and.mp hlen h3)
      simpa [h, not_not.mp hrsvd] using fun _ => hzero

/-- A word decodes to a command exactly when its fields are the command's, RSVD being 0. -/
theorem decode_eq_ok_iff {w : CmdWord} {i : Instr} :
    decode w = .ok i ↔
      opcField w = i.opc ∧ lenField w = i.len ∧ rsvdField w = 0#16 ∧ opndField w = i.opnd := by
  rw [decode_eq_ok_iff_checks]
  constructor
  · rintro ⟨hcmd, hrsvd, hzero⟩
    obtain ⟨hlen, hopnd⟩ := len_opnd_of_commandOf hcmd
    refine ⟨(opc_of_commandOf hcmd).symm, ?_, hrsvd, hopnd.symm⟩
    split_ifs at hlen with h3
    · rw [hlen, hzero h3]
    · exact hlen.symm
  · rintro ⟨hopc, hlen, hrsvd, hopnd⟩
    rw [hopc, hlen, hopnd]
    refine ⟨commandOf_self i, hrsvd, fun h3 => ?_⟩
    exact (len_opnd_of_commandOf (commandOf_self i)).1.trans (if_pos h3)

/-- Settles O1: the fields of a command's word are the command's. -/
theorem encodeThenDecodeIsIdentity : Obligations.EncodeThenDecodeIsIdentity := fun i =>
  decode_eq_ok_iff.mpr (fields_of_encode i)

/-- Settles O2: a word and the word of the command it decodes to have the same four fields. -/
theorem decodedWordReencodes : Obligations.DecodedWordReencodes := by
  intro w i h
  obtain ⟨hopc, hlen, hrsvd, hopnd⟩ := decode_eq_ok_iff.mp h
  rw [encode, ← hopc, ← hlen, ← hrsvd, ← hopnd, mkCmd_fields]

/-- Settles O4: the words are literals, and decoding computes. -/
theorem specExampleWordsDecode : Obligations.SpecExampleWordsDecode :=
  ⟨rfl, rfl, rfl, rfl, rfl, rfl, rfl, rfl, rfl⟩

/-- The words that pass the checks of 30_encoding.md R78; OPND plays no part. -/
theorem exists_decode_ok_iff {w : CmdWord} :
    (∃ i, decode w = .ok i) ↔ (1 ≤ (opcField w).toNat ∧ (opcField w).toNat ≤ 7) ∧ rsvdField w = 0#16 ∧
      (3 ≤ (opcField w).toNat → lenField w = 0#8) := by
  simp only [decode_eq_ok_iff_checks, exists_and_right, exists_commandOf_iff]

/-- A word is illegal when it decodes to no command. -/
theorem exists_decode_error_iff {w : CmdWord} : (∃ e, decode w = .error e) ↔ ¬ ∃ i, decode w = .ok i := by
  cases decode w <;> simp

/-- OPC is what stands above bit 120: the word has no bit above it (30_encoding.md R70). -/
theorem opcField_toNat (w : CmdWord) : (opcField w).toNat = opcNat w := by
  have hw : w.toNat / 2 ^ 120 < 2 ^ 8 := by have := w.isLt; omega
  rw [opcField, BitVec.extractLsb'_toNat, Nat.shiftRight_eq_div_pow, Nat.mod_eq_of_lt hw, opcNat]

/-- LEN by division (30_encoding.md R70). -/
theorem lenField_toNat (w : CmdWord) : (lenField w).toNat = lenNat w := by
  rw [lenField, BitVec.extractLsb'_toNat, Nat.shiftRight_eq_div_pow, lenNat]

/-- RSVD by division (30_encoding.md R70). -/
theorem rsvdField_toNat (w : CmdWord) : (rsvdField w).toNat = rsvdNat w := by
  rw [rsvdField, BitVec.extractLsb'_toNat, Nat.shiftRight_eq_div_pow, rsvdNat]

/-- The decoder rejects the words 30_encoding.md R79 lists, and no other. -/
theorem exists_decode_error_iff_listedIllegal {w : CmdWord} : (∃ e, decode w = .error e) ↔ listedIllegal w := by
  rw [exists_decode_error_iff, exists_decode_ok_iff, BitVec.toNat_eq, BitVec.toNat_eq, opcField_toNat, lenField_toNat,
    rsvdField_toNat, listedIllegal]
  simp only [BitVec.toNat_ofNat, Nat.zero_mod]
  omega

/-- The STATUS of a command is not the one of an illegal word (60_exceptions.md R202). -/
theorem exec_status_ne_illegalCommand (i : Instr) (s : State) :
    ∃ t, exec i s = .next t ∧ t.resp.status ≠ statusIllegalCommand := by
  rcases exec_sets_resp i s with ⟨x, h⟩ | ⟨-, -, h⟩
  · exact ⟨_, h, show statusOk ≠ statusIllegalCommand by decide⟩
  · exact ⟨_, h, show statusInvalidInputLength ≠ statusIllegalCommand by decide⟩

/-- Settles O5: the decoder rejects exactly the listed words; a rejected word is answered, any other runs a
command. -/
theorem illegalWordsAreExactlyThoseListed : Obligations.IllegalWordsAreExactlyThoseListed := by
  intro s w rest hs
  rw [step_writeCmd hs, ← exists_decode_error_iff_listedIllegal]
  rcases runCommand_cases w { s with host := rest } with ⟨e, he, h⟩ | ⟨i, hi, h⟩
  · exact ⟨fun _ => ⟨opcField w, opcField_toNat w, h⟩, fun hlegal => absurd ⟨e, he⟩ hlegal⟩
  · refine ⟨fun ⟨e, he⟩ => ?_, fun _ => h ▸ exec_status_ne_illegalCommand i _⟩
    rw [hi] at he
    cases he

/-- Settles O14: every command writes `mkResp`; the word read from RESP is laid out as a command word is. -/
theorem everyCommandWritesMkResp : Obligations.EveryCommandWritesMkResp := by
  refine ⟨fun i s => ?_, fun st o x => ⟨?_, (fields_of_word (mkResp st o x)).1⟩⟩
  · rcases exec_sets_resp i s with ⟨x, h⟩ | ⟨-, -, h⟩
    · exact ⟨_, _, h⟩
    · exact ⟨_, _, h⟩
  · have h : (mkResp st o x).word.toNat = _ := mkCmd_toNat st o 0#16 x
    simpa using h

end Sys2Proof.Machine
end

section
/-! SUPPORT. The operand bits a command reads (30_encoding.md R74, R81): ENCODE and UNPACK read 49 bits
(41_unpacker.md R122, R124), INTERLEAVE the populated cells (44_interleaver.md R182, R188). -/

namespace Sys2Proof.Machine

open Sys2Proof Sys2Proof.Claims

/-- The vector unpacked from an operand's bytes is OPND[55:7] (41_unpacker.md R124). -/
theorem unpack_operandBytes (opnd : Operand) : unpack (operandBytes opnd) = opnd.extractLsb' 7 49 := by
  refine BitVec.eq_of_getLsbD_eq fun i hi => ?_
  have hbyte : (48 - i) / 8 < 7 := by omega
  have hbit : 7 - (48 - i) % 8 < 8 := by omega
  have hplace : 48 - 8 * ((48 - i) / 8) + (7 - (48 - i) % 8) = 7 + i := by omega
  rw [unpack, getLsbD_ofSeq]
  simp [operandBytes, hi, hbyte, hbit, hplace]

/-- The cells a well-formed PERM names are populated (44_interleaver.md R182). -/
theorem populated_of_mem_cells (p : Perm) {rc : Nat × Nat} (h : rc ∈ p.table.cells) :
    populated rc.1 rc.2 = true := by
  have hwf := p.wf
  simp only [PermTable.wf, Bool.and_eq_true] at hwf
  exact List.all_eq_true.mp hwf.2 rc h

/-- The cells of pair i are among the 72 that PERM names (44_interleaver.md R181). -/
theorem pair_mem_cells (t : PermTable) {i : Nat} (hi : i < 36) :
    t.hiCell i ∈ t.cells ∧ t.loCell i ∈ t.cells := by
  constructor <;> exact List.mem_flatMap.mpr ⟨i, List.mem_range.mpr hi, by simp⟩

/-- The interleaver reads populated cells only (44_interleaver.md R188). -/
theorem interleave_congr_of_agreeOnP (p : Perm) {M N : FrameMatrix} (h : agreeOnP M N) :
    interleave p M = interleave p N := by
  refine congrArg OutBuf.out (List.foldl_ext _ _ _ fun o i hi => ?_)
  obtain ⟨hhi, hlo⟩ := pair_mem_cells p.table (List.mem_range.mp hi)
  rw [h _ _ (populated_of_mem_cells p hhi), h _ _ (populated_of_mem_cells p hlo)]

/-- Settles O17: every meaning cuts its operand out of OPND first, and decoding checks the other fields only. -/
theorem unreadOperandBitsAreIgnored : Obligations.UnreadOperandBitsAreIgnored := by
  refine ⟨fun s len a b h => ?_, fun s a b h => ?_, fun s a b h => ?_, fun s a b h => ?_, fun s a b h => ?_,
    fun opc len rsvd a b => ?_⟩
  · have hvec : unpack (operandBytes a) = unpack (operandBytes b) := by simp only [unpack_operandBytes, h]
    simp [exec, execEncode, execUnpack, encodeFrame, hvec]
  · simp [exec, execGolay, operandData, h]
  · simp [exec, execParity, operandWord, h]
  · simp [exec, execAssemble, operandVector, h]
  · simp [exec, execInterleave, operandMatrix, interleave_congr_of_agreeOnP s.perm h]
  · obtain ⟨hopc, hlen, hrsvd, -⟩ := Laws.EncodedFields.fields_of_mkCmd opc len rsvd a
    obtain ⟨hopc', hlen', hrsvd', -⟩ := Laws.EncodedFields.fields_of_mkCmd opc len rsvd b
    simp only [exists_decode_error_iff, exists_decode_ok_iff, hopc, hlen, hrsvd, hopc', hlen', hrsvd']
    exact id

end Sys2Proof.Machine
end

section
/-! SUPPORT. The assembler (30_encoding.md R83, R84): a line whose operands fit writes its word, any other writes
none, and every form but `.word` writes the word of a command. -/

namespace Sys2Proof.Machine

open Sys2Proof Sys2Proof.Claims

/-- A line writes a word exactly when its operands fit, and then it is the line's word. -/
theorem asmLine_eq_some_iff {l : AsmLine} {w : CmdWord} : asmLine l = some w ↔ l.wf = true ∧ asmWord l = w := by
  simp [asmLine]

/-- "An operand too large for its field is an assembly error" (30_encoding.md R83). -/
theorem asmLine_eq_none_iff {l : AsmLine} : asmLine l = none ↔ ¬ l.wf = true := by
  simp [asmLine]

/-- Every form but `.word` writes the word of a command (30_encoding.md R83). -/
theorem asmWord_eq_word_or_encode (l : AsmLine) : (∃ x, l = .word x) ∨ ∃ i, asmWord l = encode i := by
  cases l with
  | word x => exact .inl ⟨x, rfl⟩
  | _ => exact .inr ⟨_, rfl⟩

/-- The value of a command's word, RSVD being 0 (30_encoding.md R70). -/
theorem encode_toNat (i : Instr) :
    (encode i).toNat = i.opc.toNat * 2 ^ 120 + i.len.toNat * 2 ^ 112 + i.opnd.toNat := by
  simpa [encode] using mkCmd_toNat i.opc i.len 0#16 i.opnd

/-- A form that writes the word of the command `i`, on the range it checks, does what R83 says of it: the value is
the sum of `i`'s fields. -/
theorem assemblesTo_of_fields {l : AsmLine} {fits : Prop} {opc len x : Nat} {i : Instr}
    (hword : asmWord l = encode i) (hwf : l.wf = true ↔ fits) (hopc : i.opc.toNat = opc)
    (hlen : fits → i.len.toNat = len) (hopnd : fits → i.opnd.toNat = x) :
    assemblesTo l fits (opc * 2 ^ 120 + len * 2 ^ 112 + x) i := by
  refine ⟨fun h => ?_, fun h => asmLine_eq_none_iff.mpr (hwf.not.mpr h)⟩
  rw [← hopc, ← hlen h, ← hopnd h, ← encode_toNat, BitVec.ofNat_toNat, BitVec.setWidth_eq]
  exact ⟨asmLine_eq_some_iff.mpr ⟨hwf.mpr h, hword⟩, encodeThenDecodeIsIdentity i⟩

/-- `assemblesTo_of_fields` for the commands without a length (30_encoding.md R72). -/
theorem assemblesTo_of_fields_len_zero {l : AsmLine} {fits : Prop} {opc x : Nat} {i : Instr}
    (hword : asmWord l = encode i) (hwf : l.wf = true ↔ fits) (hopc : i.opc.toNat = opc)
    (hlen : i.len.toNat = 0) (hopnd : fits → i.opnd.toNat = x) : assemblesTo l fits (opc * 2 ^ 120 + x) i := by
  simpa using assemblesTo_of_fields hword hwf hopc (fun _ => hlen) hopnd

/-- A number that fits in a field is the field's value. -/
theorem toNat_ofNat_of_lt {n x : Nat} (h : x < 2 ^ n) : (BitVec.ofNat n x).toNat = x := by
  rw [BitVec.toNat_ofNat, Nat.mod_eq_of_lt h]

/-- The range check of the two forms with LEN and bytes, as R83 states the ranges. -/
theorem len_bytes_check_iff {len bytes : Nat} :
    (decide (len < 2 ^ 8) && decide (bytes < 2 ^ 56)) = true ↔ len ≤ 255 ∧ bytes < 2 ^ 56 := by
  rw [Bool.and_eq_true, decide_eq_true_iff, decide_eq_true_iff]
  omega

/-- Only `.word` writes an illegal word (30_encoding.md R83): the word of a command decodes. -/
theorem eq_word_of_decode_error {l : AsmLine} {w : CmdWord} {e : IllegalWord} (hl : asmLine l = some w)
    (he : decode w = .error e) : ∃ x, l = .word x := by
  obtain ⟨-, rfl⟩ := asmLine_eq_some_iff.mp hl
  rcases asmWord_eq_word_or_encode l with hx | ⟨i, hi⟩
  · exact hx
  · rw [hi, encodeThenDecodeIsIdentity i] at he
    cases he

/-- Settles O54: each form of R83 and R84 writes the word of its command; `.word` writes its value. -/
theorem assemblerWritesLegalWords : Obligations.AssemblerWritesLegalWords := by
  refine ⟨fun len bytes => ?encode, fun len bytes => ?unpack, fun bytes => ?encodeSeven, fun bytes => ?unpackSeven,
    fun d => ?golay, fun w => ?parity, fun v => ?assemble, fun m => ?scramble, fun m => ?interleave, fun x => ?word,
    fun l w e => eq_word_of_decode_error⟩
  case encode | unpack =>
    exact assemblesTo_of_fields rfl len_bytes_check_iff rfl (fun ⟨hlen, _⟩ => toNat_ofNat_of_lt (by omega))
      fun ⟨_, hbytes⟩ => toNat_ofNat_of_lt (by omega)
  case encodeSeven | unpackSeven =>
    exact assemblesTo_of_fields rfl decide_eq_true_iff rfl (fun _ => rfl) fun h => toNat_ofNat_of_lt (by omega)
  case golay | parity =>
    exact assemblesTo_of_fields_len_zero rfl (decide_eq_true_iff.trans (by omega)) rfl rfl
      fun h => toNat_ofNat_of_lt (by omega)
  case assemble | scramble | interleave =>
    exact assemblesTo_of_fields_len_zero rfl decide_eq_true_iff rfl rfl fun h => toNat_ofNat_of_lt (by omega)
  case word =>
    have hwf : (AsmLine.word x).wf = true ↔ x < 2 ^ 128 := decide_eq_true_iff
    exact ⟨fun h => asmLine_eq_some_iff.mpr ⟨hwf.mpr h, rfl⟩,
      fun h => asmLine_eq_none_iff.mpr (hwf.not.mpr (by omega))⟩

/-- Settles O55: the two lines have the same check and the same word. -/
theorem pseudoInstructionsSupplySeven : Obligations.PseudoInstructionsSupplySeven := fun _ => ⟨rfl, rfl⟩

end Sys2Proof.Machine
end

section
/-! SUPPORT. The assembled and the scrambled matrix row by row, the scrambler's seed, and the lanes that compute
them side by side (42_fec_field_encoder.md R147; 43_scrambler.md R160, R164, R167; 40_encode_pipeline.md R105 to
R107). -/

namespace Sys2Proof.Machine

open Sys2Proof

/-- Sequences with the same elements are equal. -/
theorem ofSeq_congr {n : Nat} {f g : Nat → Bool} (h : ∀ i, i < n → f i = g i) : ofSeq n f = ofSeq n g :=
  eq_of_elements fun i hi => by simp [getMsbD_ofSeq, hi, h i hi]

/-- The number a sequence stands for, read most significant element first. -/
theorem ofSeq_toNat (n : Nat) (f : Nat → Bool) :
    (ofSeq n f).toNat = (List.range n).foldl (fun x i => 2 * x + (f i).toNat) 0 := by
  induction n with
  | zero => rfl
  | succ n ih =>
    rw [ofSeq, BitVec.toNat_concat, ih, List.range_succ, List.foldl_append, Nat.mul_comm]
    rfl

/-- A row is the value whose bits are the row's cells, column 0 the most significant (10_state.md R36). -/
theorem rowval_eq_of_cells {M : FrameMatrix} {r : Nat} {x : BitVec 24}
    (h : ∀ c, c < 24 → cell M r c = x.getLsbD (23 - c)) : rowval M r = x := by
  refine eq_of_elements fun c hc => ?_
  rw [rowval, getMsbD_ofSeq, h c hc]
  simp [BitVec.getMsbD, hc]

/-- Row 0 of the assembled matrix is the C0 field word (42_fec_field_encoder.md R142). -/
theorem rowval_assemble_zero (v : Ambe49) : rowval (assemble v) 0 = c0FieldWord (fieldC0 v) :=
  rowval_eq_of_cells fun _ hc => cell_assemble v (by omega) hc

/-- Row 1 of the assembled matrix is the C1 codeword under a pad of 0 (42_fec_field_encoder.md R143). -/
theorem rowval_assemble_one (v : Ambe49) : rowval (assemble v) 1 = (golay (fieldC1 v)).setWidth 24 := by
  refine rowval_eq_of_cells fun c hc => ?_
  rw [cell_assemble v (by omega) hc, BitVec.getLsbD_setWidth, assembleCell]
  have inside : 23 - c < 24 := by omega
  split_ifs with pad
  · simp [inside]
  · rw [BitVec.getLsbD_of_ge _ _ (by omega), Bool.and_false]

/-- A field of m elements in a row's last columns, those from column a = 24 - m on (42_fec_field_encoder.md R144,
R145). -/
theorem setWidth_ofSeq_getLsbD {a m : Nat} (h : a + m = 24) (f : Nat → Bool) {c : Nat} (hc : c < 24) :
    ((ofSeq m f).setWidth 24).getLsbD (23 - c) = if a ≤ c then f (c - a) else false := by
  rw [BitVec.getLsbD_setWidth, getLsbD_ofSeq]
  have inside : 23 - c < 24 := by omega
  split_ifs with field
  · have width : 23 - c < m := by omega
    have element : m - 1 - (23 - c) = c - a := by omega
    simp only [inside, width, element, decide_true, Bool.true_and]
  · have width : ¬ 23 - c < m := by omega
    simp [width]

/-- Row 2 of the assembled matrix is the C2 field (42_fec_field_encoder.md R144). -/
theorem rowval_assemble_two (v : Ambe49) : rowval (assemble v) 2 = (fieldC2 v).setWidth 24 := by
  refine rowval_eq_of_cells fun c hc => ?_
  rw [cell_assemble v (by omega) hc, assembleCell, fieldC2, setWidth_ofSeq_getLsbD (a := 13) rfl _ hc]
  split_ifs with field
  · have element : 24 + (c - 13) = c + 11 := by omega
    rw [element]
  · rfl

/-- Row 3 of the assembled matrix is the C3 field (42_fec_field_encoder.md R145). -/
theorem rowval_assemble_three (v : Ambe49) : rowval (assemble v) 3 = (fieldC3 v).setWidth 24 := by
  refine rowval_eq_of_cells fun c hc => ?_
  rw [cell_assemble v (by omega) hc, assembleCell, fieldC3, setWidth_ofSeq_getLsbD (a := 10) rfl _ hc]
  split_ifs with field
  · have element : 35 + (c - 10) = c + 25 := by omega
    rw [element]
  · rfl

/-- The key bits of seed s over the columns of row 1: `key(k)` at bit k, bit 0 being 0 (43_scrambler.md R164). -/
def keyRow (s : Nat) : BitVec 24 := ofSeq 24 fun c => decide (c ≤ 22) && decide (key s (23 - c) = 1)

/-- Lane K computes the key bits of the seed `d0` (40_encode_pipeline.md R107). -/
theorem lanes_keys (v : Ambe49) : (lanes v).keys = keyRow (fieldC0 v).toNat := rfl

/-- The key bit of column c (43_scrambler.md R163). -/
theorem keyRow_getLsbD (s : Nat) {c : Nat} (hc : c < 24) :
    (keyRow s).getLsbD (23 - c) = (decide (c ≤ 22) && decide (key s (23 - c) = 1)) := by
  have inside : 23 - c < 24 := by omega
  have column : 24 - 1 - (23 - c) = c := by omega
  simp only [keyRow, getLsbD_ofSeq, inside, column, decide_true, Bool.true_and]

/-- Scrambling XORs the key bits into row 1 (43_scrambler.md R164). -/
theorem rowval_scramble_one (M : FrameMatrix) : rowval (scramble M) 1 = rowval M 1 ^^^ keyRow (seed M) := by
  refine rowval_eq_of_cells fun c hc => ?_
  rw [cell_scramble M (by omega) hc, BitVec.getLsbD_xor, rowval_getLsbD M 1 c hc, keyRow_getLsbD _ hc]
  by_cases scrambled : c ≤ 22 <;> simp [scrambled]

/-- Scrambling leaves the other rows as they are (43_scrambler.md R163). -/
theorem rowval_scramble_of_ne_one (M : FrameMatrix) {r : Nat} (hr : r < 4) (h : r ≠ 1) :
    rowval (scramble M) r = rowval M r := by
  refine rowval_eq_of_cells fun c hc => ?_
  rw [cell_scramble M hr hc, if_neg fun hrow => h hrow.1, rowval_getLsbD M r c hc]

/-- The seed is the value of row 0, columns 12 to 23, column 12 the most significant (43_scrambler.md R160). -/
theorem seed_eq_ofSeq_toNat (M : FrameMatrix) : seed M = (ofSeq 12 fun i => cell M 0 (12 + i)).toNat := by
  rw [ofSeq_toNat, seed, List.range'_eq_map_range, List.foldl_map]

/-- The C0 field word holds the data in its low 12 bits (42_fec_field_encoder.md R131, R142). -/
theorem c0FieldWord_getLsbD (d : BitVec 12) {i : Nat} (hi : i < 12) :
    (c0FieldWord d).getLsbD i = d.getLsbD i := by
  have below : i < 23 := by omega
  have inside : i < 24 := by omega
  rw [c0FieldWord, BitVec.getLsbD_or, BitVec.getLsbD_shiftLeft, BitVec.getLsbD_setWidth _ (golay d), golay_getLsbD,
    if_pos hi]
  simp [below, inside]

/-- Element i of the vector stands in row 0, column 12 + i of the assembled matrix (42_fec_field_encoder.md
R150). -/
theorem cell_assemble_data (v : Ambe49) {i : Nat} (hi : i < 12) :
    cell (assemble v) 0 (12 + i) = v.getMsbD i := by
  have bit : 23 - (12 + i) = 11 - i := by omega
  have width : 11 - i < 12 := by omega
  have element : 12 - 1 - (11 - i) = i := by omega
  rw [cell_assemble v (by omega) (by omega), assembleCell, bit, c0FieldWord_getLsbD _ width, fieldC0, getLsbD_ofSeq,
    element]
  simp [width]

/-- In the pipeline the seed is the C0 data value (43_scrambler.md R167). -/
theorem seed_assemble (v : Ambe49) : seed (assemble v) = (fieldC0 v).toNat := by
  rw [seed_eq_ofSeq_toNat, fieldC0, ofSeq_congr fun _ hi => cell_assemble_data v hi]

/-- The lanes side by side make up the scrambled matrix of the pipeline (40_encode_pipeline.md R107). -/
theorem lanes_matrix (v : Ambe49) : (lanes v).matrix = scramble (assemble v) := by
  obtain ⟨rows, -⟩ := matrixIsItsRows (scramble (assemble v))
  rw [rows, rowval_scramble_one, rowval_scramble_of_ne_one _ (by decide : 0 < 4) (by decide),
    rowval_scramble_of_ne_one _ (by decide : 2 < 4) (by decide),
    rowval_scramble_of_ne_one _ (by decide : 3 < 4) (by decide), rowval_assemble_zero, rowval_assemble_one,
    rowval_assemble_two, rowval_assemble_three, seed_assemble, ← lanes_keys]
  rfl

/-- Settles O46: row by row the pipeline's matrix is what the lanes compute, the seed being `d0`; each lane is a
function of its own field, whose elements are the ones named. -/
theorem lanesEqualTheSequentialPipeline : Obligations.LanesEqualTheSequentialPipeline := by
  refine ⟨lanes_matrix, fun v w => ⟨fun h => ?c0, fun h => ?c1, fun h => ?c2, fun h => ?c3⟩⟩
  case c0 =>
    have field : fieldC0 v = fieldC0 w := ofSeq_congr fun i _ => h i (by omega)
    exact ⟨by simp only [lanes, field], by rw [lanes_keys, lanes_keys, field]⟩
  case c1 =>
    have field : fieldC1 v = fieldC1 w := ofSeq_congr fun i _ => h (12 + i) (by omega) (by omega)
    simp only [lanes, field]
  case c2 =>
    have field : fieldC2 v = fieldC2 w := ofSeq_congr fun i _ => h (24 + i) (by omega) (by omega)
    simp only [lanes, field]
  case c3 =>
    have field : fieldC3 v = fieldC3 w := ofSeq_congr fun i _ => h (35 + i) (by omega) (by omega)
    simp only [lanes, field]

end Sys2Proof.Machine
end

section
/-! SUPPORT. ENCODE and the chain of the stage commands (40_encode_pipeline.md R100, R102). The interleaver reads
every populated cell (44_interleaver.md R182, R187), so a 1 in one of them reaches RESULT. -/

namespace Sys2Proof.Machine

open Sys2Proof

/-- ENCODE with LEN not 7 is the length error (40_encode_pipeline.md R102). -/
theorem exec_encode_of_len_ne {len : BitVec 8} (h : len ≠ 7#8) (opnd : Operand) (s : State) :
    exec (.encode len opnd) s = .next (raise .invalidInputLength 1#8 s) := by
  simp [exec, execEncode, h]

/-- ENCODE with LEN 7 responds with the bytes of the four stages, run on OPND[55:7] (40_encode_pipeline.md R100,
R102). -/
theorem exec_encode_seven (opnd : Operand) (s : State) :
    exec (.encode 7#8 opnd) s =
      .next (respond 1#8 (resultBytes (interleave s.perm (scramble (assemble (opnd.extractLsb' 7 49))))) s) := by
  simp [exec, execEncode, encodeFrame, unpack_operandBytes]

/-- UNPACK with LEN 7 responds with the vector OPND[55:7] (41_unpacker.md R123, R124). -/
theorem exec_unpack_seven (opnd : Operand) (s : State) :
    exec (.unpack 7#8 opnd) s = .next (respond 2#8 (resultBits (opnd.extractLsb' 7 49)) s) := by
  simp [exec, execUnpack, unpack_operandBytes]

/-- ASSEMBLE responds with the matrix of its vector (42_fec_field_encoder.md R149). -/
theorem exec_assemble (opnd : Operand) (s : State) :
    exec (.assemble opnd) s = .next (respond 5#8 (assemble (operandVector opnd)) s) := rfl

/-- SCRAMBLE responds with its operand scrambled (43_scrambler.md R170). -/
theorem exec_scramble (opnd : Operand) (s : State) :
    exec (.scramble opnd) s = .next (respond 6#8 (scramble opnd) s) := rfl

/-- INTERLEAVE responds with the bytes of its operand (44_interleaver.md R189). -/
theorem exec_interleave (opnd : Operand) (s : State) :
    exec (.interleave opnd) s = .next (respond 7#8 (resultBytes (interleave s.perm opnd)) s) := rfl

/-- ASSEMBLE reads back the vector UNPACK leaves in RESULT (30_encoding.md R81, R82). -/
theorem operandVector_resultBits (v : Ambe49) : operandVector (resultBits v) = v := by
  refine BitVec.eq_of_getLsbD_eq fun i hi => ?_
  have inside : i < 96 := by omega
  simp [operandVector, resultBits, hi, inside]

/-- Settles O45: each stage command reads the RESULT before it as its operand, and no command changes PERM. -/
theorem stageChainEqualsEncode : Obligations.StageChainEqualsEncode := by
  intro s opnd
  refine ⟨_, _, _, _, _, exec_unpack_seven opnd s, exec_assemble _ _, exec_scramble _ _, exec_interleave _ _,
    exec_encode_seven opnd s, ?_⟩
  simp only [respond_resp, respond_perm, mkResp_result, mkResp_status, mkResp_ropc, operandVector_resultBits, statusOk,
    and_self]

/-- The populated set as a list of cells (42_fec_field_encoder.md R146). -/
def populatedCells : List (Nat × Nat) :=
  ((List.range 96).map fun n => (n / 24, n % 24)).filter fun rc => populated rc.1 rc.2

/-- Populated cells lie in the matrix (42_fec_field_encoder.md R146). -/
theorem lt_of_populated {r c : Nat} (h : populated r c = true) : r < 4 ∧ c < 24 := by
  match r with
  | 0 | 1 | 2 | 3 =>
    have columns := of_decide_eq_true h
    omega

/-- The list names exactly the populated cells. -/
theorem mem_populatedCells {r c : Nat} : (r, c) ∈ populatedCells ↔ populated r c = true := by
  refine ⟨fun h => (List.mem_filter.mp h).2, fun h => List.mem_filter.mpr ⟨?_, h⟩⟩
  obtain ⟨hr, hc⟩ := lt_of_populated h
  have place : 24 * r + c < 96 := by omega
  have row : (24 * r + c) / 24 = r := by omega
  have column : (24 * r + c) % 24 = c := by omega
  exact List.mem_map.mpr ⟨24 * r + c, List.mem_range.mpr place, by rw [row, column]⟩

/-- The cells a well-formed PERM names are distinct (44_interleaver.md R181). -/
theorem cells_nodup (p : Perm) : p.table.cells.Nodup := by
  have hwf := p.wf
  simp only [PermTable.wf, Bool.and_eq_true] at hwf
  obtain ⟨⟨-, hdistinct⟩, -⟩ := hwf
  exact of_decide_eq_true hdistinct

/-- PERM names every populated cell: its 72 cells are distinct and populated, and there are no more than 72
(44_interleaver.md R182). -/
theorem mem_cells_of_populated (p : Perm) {r c : Nat} (h : populated r c = true) : (r, c) ∈ p.table.cells := by
  have sub : p.table.cells.Subperm populatedCells :=
    (cells_nodup p).subperm fun _ hrc => mem_populatedCells.mpr (populated_of_mem_cells p hrc)
  have count : populatedCells.length ≤ p.table.cells.length := by
    have named : p.table.cells.length = 72 := by simp [PermTable.cells]
    have all : populatedCells.length = 72 := by decide +kernel
    omega
  exact (sub.perm_of_length_le count).mem_iff.mpr (mem_populatedCells.mpr h)

/-- Bit j of the output stream is bit 71 - j of RESULT (20_memory.md R52; 44_interleaver.md R186). -/
theorem resultBytes_interleave_getLsbD (p : Perm) (M : FrameMatrix) {j : Nat} (hj : j < 72) :
    (resultBytes (interleave p M)).getLsbD (71 - j) = streamBit p M j := by
  have inside : 71 - j < 8 * 9 := by omega
  have low : (71 - j) % 8 < 8 := by omega
  have place : 8 * (9 - 1 - (71 - j) / 8) + (8 - 1 - (71 - j) % 8) = j := by omega
  rw [interleave_eq_stream, resultBytes_getLsbD _ 9 (by omega), getLsbD_ofSeq, place]
  simp only [inside, low, decide_true, Bool.true_and]

/-- Each populated cell has its bit of RESULT, whatever the matrix (44_interleaver.md R187). -/
theorem exists_result_bit_of_populated (p : Perm) {r c : Nat} (h : populated r c = true) :
    ∃ j, j < 72 ∧ ∀ M : FrameMatrix, (resultBytes (interleave p M)).getLsbD (71 - j) = cell M r c := by
  obtain ⟨i, hi, hpair⟩ := List.mem_flatMap.mp (mem_cells_of_populated p h)
  have hi : i < 36 := List.mem_range.mp hi
  rcases List.mem_pair.mp hpair with hcell | hcell
  · refine ⟨2 * i, by omega, fun M => ?_⟩
    rw [resultBytes_interleave_getLsbD p M (by omega), streamBit, if_pos (by omega), Nat.mul_div_cancel_left i two_pos,
      ← hcell]
  · refine ⟨2 * i + 1, by omega, fun M => ?_⟩
    have pair : (2 * i + 1) / 2 = i := by omega
    rw [resultBytes_interleave_getLsbD p M (by omega), streamBit, if_neg (by omega), pair, ← hcell]

/-- A 1 in a populated cell reaches RESULT. -/
theorem resultBytes_interleave_ne_zero (p : Perm) {M : FrameMatrix} {r c : Nat} (h : populated r c = true)
    (hone : cell M r c = true) : resultBytes (interleave p M) ≠ 0#96 := by
  obtain ⟨j, -, hj⟩ := exists_result_bit_of_populated p h
  intro hzero
  have bit := (hj M).trans hone
  rw [hzero, BitVec.getLsbD_zero] at bit
  cases bit

/-- The all-zero vector assembles to 0, and the keystream of seed 0 makes row 1 of it 0xC46684
(40_encode_pipeline.md R102; 43_scrambler.md R168, R170). -/
theorem scramble_assemble_zero : scramble (assemble 0#49) = 0x000000_C46684_000000_000000#96 := by decide +kernel

/-- Settles O44: the length check comes first; of the scrambled all-zero input, cell (1, 1) is populated and 1. -/
theorem encodeRunsTheFourStages : Obligations.EncodeRunsTheFourStages := by
  refine fun s len opnd => ⟨fun h => exec_encode_of_len_ne h opnd s, ?seven, resultBytes_interleave_toNat_lt _ _,
    ?zero, resultBytes_interleave_ne_zero s.perm (r := 1) (c := 1) rfl (by decide)⟩
  case seven =>
    rintro rfl
    exact exec_encode_seven opnd s
  case zero =>
    have vector : (0#96).extractLsb' 7 49 = 0#49 := rfl
    rw [exec_encode_seven, vector, scramble_assemble_zero]
    rfl

end Sys2Proof.Machine
end

section
/-! The Bit Unpacker's own statements: the order of the vector's elements (41_unpacker.md R120) and UNPACK's
RESULT (41_unpacker.md R124). -/

namespace Sys2Proof.Machine

open Sys2Proof Sys2Proof.Claims

/-- Settles O18: the vector unpacked from the operand's bytes is OPND[55:7], and an OK response puts it in RESULT
with 0 above it. -/
theorem unpackIsShiftBySeven : Obligations.UnpackIsShiftBySeven := by
  intro s opnd
  rw [exec_unpack_seven]
  rfl

/-- Settles O19: element i of a vector given by its elements is the i-th one given. -/
theorem unpackTakesBytesMsbFirst : Obligations.UnpackTakesBytesMsbFirst := by
  intro b i _ hi
  rw [unpack, getMsbD_ofSeq, decide_eq_true hi, Bool.true_and]

end Sys2Proof.Machine
end

section
/-! SUPPORT. The 1 bits of a word: their number, the parity of their number, and induction on a word one 1 bit at
a time. -/

namespace Sys2Proof.Machine

open Sys2Proof Sys2Proof.Claims

/-- The number of 1 bits is the sum of the bits. -/
theorem ones_eq_sum {n : Nat} (w : BitVec n) : ones w = ∑ i ∈ Finset.range n, (w.getLsbD i).toNat := by
  have count (f : Nat → Bool) (m : Nat) :
      ((List.range m).filter f).length = ∑ i ∈ Finset.range m, (f i).toNat := by
    induction m with
    | zero => rfl
    | succ m ih =>
      rw [List.range_succ, List.filter_append, List.length_append, ih, Finset.sum_range_succ]
      cases h : f m <;> simp [h]
  exact count _ n

/-- A bit set in both words counts once on each side and drops out of the XOR. -/
theorem ones_xor_add {n : Nat} (a b : BitVec n) : ones (a ^^^ b) + 2 * ones (a &&& b) = ones a + ones b := by
  simp only [ones_eq_sum, Finset.mul_sum, ← Finset.sum_add_distrib]
  refine Finset.sum_congr rfl fun i _ => ?_
  rw [BitVec.getLsbD_xor, BitVec.getLsbD_and]
  cases a.getLsbD i <;> cases b.getLsbD i <;> rfl

/-- The 1 bits of two words side by side. -/
theorem ones_append {m n : Nat} (a : BitVec m) (b : BitVec n) : ones (a ++ b) = ones a + ones b := by
  simp only [ones_eq_sum, Nat.add_comm m n, Finset.sum_range_add, BitVec.getLsbD_append]
  rw [Nat.add_comm]
  refine congrArg₂ _ (Finset.sum_congr rfl fun i _ => ?_) (Finset.sum_congr rfl fun i hi => ?_)
  · simp
  · simp [Finset.mem_range.mp hi]

/-- The XOR of the bits tells whether the number of 1 bits is odd. -/
theorem bodd_ones {n : Nat} (w : BitVec n) : (ones w).bodd = xorBits w := by
  have fold (f : Nat → Bool) (m : Nat) :
      (∑ i ∈ Finset.range m, (f i).toNat).bodd = (List.range m).foldl (fun p i => p ^^ f i) false := by
    induction m with
    | zero => simp
    | succ m ih =>
      rw [Finset.sum_range_succ, Nat.bodd_add, ih, List.range_succ, List.foldl_append]
      cases h : f m <;> simp [h]
  rw [ones_eq_sum]
  exact fold _ n

/-- The XOR of the bits is linear. -/
theorem xorBits_xor {n : Nat} (a b : BitVec n) : xorBits (a ^^^ b) = (xorBits a ^^ xorBits b) := by
  simpa [bodd_ones] using congrArg Nat.bodd (ones_xor_add a b)

/-- The XOR of the bits of two words side by side. -/
theorem xorBits_append {m n : Nat} (a : BitVec m) (b : BitVec n) : xorBits (a ++ b) = (xorBits a ^^ xorBits b) := by
  simpa [bodd_ones] using congrArg Nat.bodd (ones_append a b)

/-- A word with a single bit set has one 1 bit. -/
theorem ones_twoPow {n i : Nat} (h : i < n) : ones (BitVec.twoPow n i) = 1 := by
  rw [ones_eq_sum, Finset.sum_eq_single_of_mem i (Finset.mem_range.mpr h)]
  · simp [h]
  · intro j _ hj
    simp [hj.symm]

/-- The XOR of the bits of a word with a single bit set. -/
theorem xorBits_twoPow {n i : Nat} (h : i < n) : xorBits (BitVec.twoPow n i) = true := by
  rw [← bodd_ones, ones_twoPow h, Nat.bodd_one]

/-- The word with bit i set, as the statements write it. -/
theorem twoPow_eq_ofNat (n i : Nat) : BitVec.twoPow n i = BitVec.ofNat n (2 ^ i) :=
  BitVec.eq_of_toNat_eq (by rw [BitVec.toNat_twoPow, BitVec.toNat_ofNat])

/-- A word with one 1 bit more than k is a word with k of them and a flipped bit. -/
theorem exists_eq_flip {n k : Nat} {w : BitVec n} (h : ones w = k + 1) :
    ∃ u i, i < n ∧ ones u = k ∧ w = u ^^^ BitVec.twoPow n i := by
  obtain ⟨i, one⟩ : ∃ i, w.getLsbD i = true := by
    by_contra! none
    rw [ones_eq_sum, Finset.sum_eq_zero fun i _ => by simp [none i]] at h
    omega
  have hi : i < n := BitVec.lt_of_getLsbD one
  have sum := ones_xor_add w (BitVec.twoPow n i)
  rw [BitVec.and_twoPow, if_pos one, ones_twoPow hi] at sum
  refine ⟨w ^^^ BitVec.twoPow n i, i, hi, by omega, ?_⟩
  rw [BitVec.xor_assoc, BitVec.xor_self, BitVec.xor_zero]

/-- Only 0 has no 1 bit. -/
theorem ones_eq_zero_iff {n : Nat} {w : BitVec n} : ones w = 0 ↔ w = 0#n := by
  refine ⟨fun h => BitVec.eq_of_getLsbD_eq fun i hi => ?_, fun h => by simp [h, ones_eq_sum]⟩
  rw [ones_eq_sum, Finset.sum_eq_zero_iff] at h
  simpa using h i (Finset.mem_range.mpr hi)

/-- Induction on a word, one 1 bit at a time. -/
theorem flip_induction {n : Nat} {p : BitVec n → Prop} (zero : p 0#n)
    (flip : ∀ w i, i < n → p w → p (w ^^^ BitVec.twoPow n i)) (w : BitVec n) : p w := by
  induction hk : ones w generalizing w with
  | zero => exact ones_eq_zero_iff.mp hk ▸ zero
  | succ k ih =>
    obtain ⟨u, i, hi, hu, rfl⟩ := exists_eq_flip hk
    exact flip u i hi (ih u hu)

/-- A single bit of a word, picked by AND. -/
theorem xorBits_and_twoPow {n : Nat} (w : BitVec n) (i : Nat) : xorBits (w &&& BitVec.twoPow n i) = w.getLsbD i := by
  rw [BitVec.and_twoPow]
  cases h : w.getLsbD i with
  | false => rw [if_neg Bool.false_ne_true, ← bodd_ones, ones_eq_zero_iff.mpr rfl, Nat.bodd_zero]
  | true => rw [if_pos rfl, xorBits_twoPow (BitVec.lt_of_getLsbD h)]

end Sys2Proof.Machine
end

section
/-! SUPPORT. Golay(23,12) (42_fec_field_encoder.md R130 to R133, R138): the division loop is linear, its check bits
stand above the data, and they are the XOR of the table's entries. -/

namespace Sys2Proof.Machine

open Sys2Proof Sys2Proof.Claims

/-- One iteration of the division loop is linear (42_fec_field_encoder.md R133). -/
theorem golayStep_xor (a b : BitVec 12) : golayStep (a ^^^ b) = golayStep a ^^^ golayStep b := by
  rw [golayStep, golayStep, golayStep, ← BitVec.ushiftRight_xor_distrib, BitVec.getLsbD_xor]
  refine congrArg (fun c : BitVec 12 => c >>> 1) ?_
  cases a.getLsbD 0 <;> cases b.getLsbD 0
  · rfl
  · exact BitVec.xor_assoc a b golayPoly
  · simp only [Bool.xor_false, if_true, Bool.false_eq_true, if_false]
    ac_rfl
  · have pairs : a ^^^ golayPoly ^^^ (b ^^^ golayPoly) = a ^^^ b ^^^ (golayPoly ^^^ golayPoly) := by ac_rfl
    simp [pairs]

/-- The division loop is linear. -/
theorem golayLoop_xor (n : Nat) (a b : BitVec 12) : golayLoop n (a ^^^ b) = golayLoop n a ^^^ golayLoop n b := by
  induction n generalizing a b with
  | zero => rfl
  | succ n ih => rw [golayLoop, golayStep_xor, ih, golayLoop, golayLoop]

/-- The check bits are linear in the data. -/
theorem golayCheck_xor (a b : BitVec 12) : golayCheck (a ^^^ b) = golayCheck a ^^^ golayCheck b :=
  golayLoop_xor 12 a b

/-- The shift leaves 11 bits (42_fec_field_encoder.md R131). -/
theorem golayStep_toNat_lt (c : BitVec 12) : (golayStep c).toNat < 2 ^ 11 := by
  rw [golayStep, BitVec.toNat_ushiftRight, Nat.shiftRight_eq_div_pow]
  omega

/-- The division loop keeps a working value of 11 bits. -/
theorem golayLoop_toNat_lt (n : Nat) {c : BitVec 12} (h : c.toNat < 2 ^ 11) : (golayLoop n c).toNat < 2 ^ 11 := by
  induction n generalizing c with
  | zero => exact h
  | succ n ih => exact ih (golayStep_toNat_lt c)

/-- There are 11 check bits (42_fec_field_encoder.md R131). -/
theorem golayCheck_toNat_lt (d : BitVec 12) : (golayCheck d).toNat < 2 ^ 11 :=
  golayLoop_toNat_lt 11 (golayStep_toNat_lt d)

/-- A codeword is the check bits above the data (42_fec_field_encoder.md R131). -/
theorem golay_eq_append (d : BitVec 12) : golay d = (golayCheck d).setWidth 11 ++ d := by
  refine BitVec.eq_of_getLsbD_eq fun i hi => ?_
  have check : i - 12 < 11 := by omega
  rw [golay_getLsbD, BitVec.getLsbD_append, BitVec.getLsbD_setWidth]
  simp [hi, check]

/-- Codewords are linear in the data (42_fec_field_encoder.md R133). -/
theorem golay_xor (a b : BitVec 12) : golay (a ^^^ b) = golay a ^^^ golay b := by
  rw [golay_eq_append, golay_eq_append a, golay_eq_append b, golayCheck_xor, BitVec.setWidth_xor]
  exact BitVec.xor_append.symm

/-- A codeword as a number (42_fec_field_encoder.md R131). -/
theorem golay_toNat (d : BitVec 12) : (golay d).toNat = (golayCheck d).toNat * 2 ^ 12 + d.toNat := by
  rw [golay_eq_append, toNat_append_eq_mul_add, BitVec.toNat_setWidth, Nat.mod_eq_of_lt (golayCheck_toNat_lt d)]

/-- The table's entries are the check bits of the single data bits (42_fec_field_encoder.md R133). -/
theorem golayT_eq_check {j : Nat} (h : j < 12) :
    golayT.getD j 0 = (golayCheck (BitVec.twoPow 12 j)).toNat := by
  revert j
  decide

/-- The table's XOR over a single data bit is its entry. -/
theorem checkByTable_twoPow {j : Nat} (h : j < 12) : checkByTable (BitVec.twoPow 12 j) = golayT.getD j 0 := by
  revert j
  decide

/-- The XOR of the table's entries over the set bits is linear. -/
theorem checkByTable_xor (a b : BitVec 12) : checkByTable (a ^^^ b) = checkByTable a ^^^ checkByTable b := by
  have fold (l : List Nat) (x y : Nat) :
      l.foldl (fun x j => if (a ^^^ b).getLsbD j then x ^^^ golayT.getD j 0 else x) (x ^^^ y) =
        l.foldl (fun x j => if a.getLsbD j then x ^^^ golayT.getD j 0 else x) x ^^^
          l.foldl (fun x j => if b.getLsbD j then x ^^^ golayT.getD j 0 else x) y := by
    induction l generalizing x y with
    | nil => rfl
    | cons j l ih =>
      simp only [List.foldl_cons, ← ih, BitVec.getLsbD_xor]
      congr 1
      cases a.getLsbD j <;> cases b.getLsbD j
      · rfl
      · exact Nat.xor_assoc x y _
      · exact Nat.xor_right_comm x y _
      · have pairs (t : Nat) : x ^^^ t ^^^ (y ^^^ t) = x ^^^ y ^^^ (t ^^^ t) := by ac_rfl
        simp [pairs]
  exact fold _ 0 0

/-- The check bits are the XOR of the table's entries over the set bits of the data (42_fec_field_encoder.md
R133). -/
theorem golayCheck_toNat (d : BitVec 12) : (golayCheck d).toNat = checkByTable d := by
  induction d using flip_induction with
  | zero => rfl
  | flip d j hj ih =>
    rw [golayCheck_xor, BitVec.toNat_xor, ih, ← golayT_eq_check hj, checkByTable_xor, checkByTable_twoPow hj]

/-- Settles O21: the loop is linear step by step, and the table holds its values on the single bits. -/
theorem golayIsLinear : Obligations.GolayIsLinear :=
  ⟨golay_xor, golayCheck_toNat, fun j hj => by rw [golayT_eq_check hj, twoPow_eq_ofNat]⟩

/-- Settles O22: a codeword is the check bits, of which there are 11, above the data. -/
theorem golayIsSystematic : Obligations.GolayIsSystematic := by
  refine fun d => ⟨?_, ?_, golayCheck_toNat_lt d, (golay d).isLt⟩
  · rw [golay_eq_append]
    exact BitVec.extractLsb'_append_eq_right
  · rw [golay_eq_append]
    exact BitVec.extractLsb'_append_eq_left

/-- GOLAY responds with the codeword of OPND[11:0] (42_fec_field_encoder.md R138). -/
theorem exec_golay (opnd : Operand) (s : State) :
    exec (.golay opnd) s = .next (respond 3#8 (resultBits (golay (operandData opnd))) s) := rfl

/-- Settles O23: RESULT is the codeword as a number, its check bits read from the table. -/
theorem golayCommandWritesCodeword : Obligations.GolayCommandWritesCodeword := by
  intro s opnd
  rw [← golayCheck_toNat, ← golay_toNat, BitVec.ofNat_toNat]
  exact exec_golay opnd s

end Sys2Proof.Machine
end

section
/-! SUPPORT. The parity of a word (42_fec_field_encoder.md R136, R137, R139). -/

namespace Sys2Proof.Machine

open Sys2Proof Sys2Proof.Claims

/-- Folding a byte over 4, 2 and 1 positions collects the XOR of its bits in bit 0 (42_fec_field_encoder.md
R136). -/
theorem fold_byte_getLsbD (x : BitVec 8) :
    (let p1 := x ^^^ (x >>> 4)
     let p2 := p1 ^^^ (p1 >>> 2)
     (p2 ^^^ (p2 >>> 1)).getLsbD 0) = xorBits x := by
  simp only [xorBits, List.range_succ, List.range_zero, List.foldl_append, List.foldl_nil, List.foldl_cons,
    List.nil_append, BitVec.getLsbD_xor, BitVec.getLsbD_ushiftRight, Nat.reduceAdd, Bool.false_xor]
  simp only [Bool.xor_assoc, Bool.xor_left_comm]

/-- The XOR of all bits is that of the XOR of the three bytes. -/
theorem xorBits_eq_xorBits_bytes (w : BitVec 24) :
    xorBits w = xorBits (w.extractLsb' 0 8 ^^^ w.extractLsb' 8 8 ^^^ w.extractLsb' 16 8) := by
  have bytes : w = w.extractLsb' 16 8 ++ (w.extractLsb' 8 8 ++ w.extractLsb' 0 8) := by
    rw [BitVec.extractLsb'_append_extractLsb'_eq_extractLsb' (start₂ := 8) (start₁ := 0) rfl,
      BitVec.extractLsb'_append_extractLsb'_eq_extractLsb' (start₂ := 16) (start₁ := 0) rfl]
    exact BitVec.extractLsb'_eq_self.symm
  have sides := xorBits_append (w.extractLsb' 16 8) (w.extractLsb' 8 8 ++ w.extractLsb' 0 8)
  rw [← bytes] at sides
  rw [sides, xorBits_append, xorBits_xor, xorBits_xor, Bool.xor_comm, Bool.xor_comm (xorBits _)]

/-- Parity is the XOR of all 24 bits (42_fec_field_encoder.md R137). -/
theorem parity_eq_xorBits (w : BitVec 24) : parity w = xorBits w :=
  (fold_byte_getLsbD _).trans (xorBits_eq_xorBits_bytes w).symm

/-- A zero bit above a word adds nothing to the XOR of its bits. -/
theorem xorBits_setWidth (cw : BitVec 23) : xorBits (cw.setWidth 24) = xorBits cw := by
  have pad : cw.setWidth 24 = 0#1 ++ cw := by rw [BitVec.setWidth_eq_append (by decide)]; rfl
  rw [pad]
  exact (xorBits_append 0#1 cw).trans (Bool.false_xor _)

/-- The XOR of a single bit is the bit. -/
theorem xorBits_ofBool (b : Bool) : xorBits (BitVec.ofBool b) = b := by
  cases b <;> rfl

/-- With its parity above it, a word has an even number of 1 bits (42_fec_field_encoder.md R137). -/
theorem xorBits_parity_append (cw : BitVec 23) :
    xorBits (BitVec.ofBool (parity (cw.setWidth 24)) ++ cw) = false := by
  rw [xorBits_append, xorBits_ofBool, parity_eq_xorBits, xorBits_setWidth, Bool.xor_self]

/-- Settles O26: parity is the XOR of all bits, which is linear; a word with its parity above it has XOR 0 and the
flipped bit alone has XOR 1. -/
theorem parityDetectsEverySingleFlip : Obligations.ParityDetectsEverySingleFlip := by
  refine ⟨parity_eq_xorBits, fun cw => ⟨xorBits_parity_append cw, fun j hj => ?_⟩⟩
  refine (xorBits_xor _ _).trans ?_
  rw [xorBits_parity_append, ← twoPow_eq_ofNat, xorBits_twoPow hj]
  rfl

/-- PARITY responds with the parity of OPND[23:0] (42_fec_field_encoder.md R139). -/
theorem exec_parity (opnd : Operand) (s : State) :
    exec (.parity opnd) s = .next (respond 4#8 (resultBits (BitVec.ofBool (parity (operandWord opnd)))) s) := rfl

/-- Settles O27: RESULT is the parity bit as a number. -/
theorem parityCommandWritesXorOfAllBits : Obligations.ParityCommandWritesXorOfAllBits := by
  intro s opnd
  rw [← parity_eq_xorBits, ← BitVec.toNat_ofBool, BitVec.ofNat_toNat]
  exact exec_parity opnd s

end Sys2Proof.Machine
end

section
/-! SUPPORT. The distance of codewords (42_fec_field_encoder.md R134). The C0 field words are the extended Golay code:
any two overlap in an even number of bits, so the weight of each is a multiple of 4, and a word of weight 4 would have
at most 2 bits in its lower or at most 1 in its upper half, which a few single cases exclude. -/

namespace Sys2Proof.Machine

open Sys2Proof Sys2Proof.Claims

/-- The C0 field word is the parity of the codeword above the codeword (42_fec_field_encoder.md R142). -/
theorem c0FieldWord_eq_append (d : BitVec 12) : c0FieldWord d = BitVec.ofBool (xorBits (golay d)) ++ golay d := by
  refine BitVec.eq_of_getLsbD_eq fun i hi => ?_
  rw [c0FieldWord, parity_eq_xorBits, xorBits_setWidth, BitVec.getLsbD_append]
  by_cases h : i < 23
  · simp [h, hi]
  · have top : i = 23 := by omega
    simp [top]

/-- C0 field words are linear in the data. -/
theorem c0FieldWord_xor (a b : BitVec 12) : c0FieldWord (a ^^^ b) = c0FieldWord a ^^^ c0FieldWord b := by
  rw [c0FieldWord_eq_append, c0FieldWord_eq_append a, c0FieldWord_eq_append b, golay_xor, xorBits_xor,
    ← BitVec.ofBool_xor_ofBool]
  exact BitVec.xor_append.symm

/-- The XOR over the overlap of two words is linear in the first. -/
theorem xorBits_xor_and {n : Nat} (a b c : BitVec n) :
    xorBits ((a ^^^ b) &&& c) = (xorBits (a &&& c) ^^ xorBits (b &&& c)) := by
  rw [← xorBits_xor]
  congr 1
  exact BitVec.eq_of_getLsbD_eq fun i _ => by simp [Bool.and_xor_distrib_right]

/-- The data 0 has the C0 field word 0. -/
theorem c0FieldWord_zero : c0FieldWord 0#12 = 0#24 := by decide +kernel

/-- The C0 field words of the single data bits overlap in an even number of bits. -/
theorem xorBits_basis_and_basis : ∀ i, i < 12 → ∀ j, j < 12 →
    xorBits (c0FieldWord (BitVec.twoPow 12 i) &&& c0FieldWord (BitVec.twoPow 12 j)) = false := by
  decide +kernel

/-- Any two C0 field words overlap in an even number of bits: the extended code is self-dual. -/
theorem xorBits_c0FieldWord_and (d e : BitVec 12) : xorBits (c0FieldWord d &&& c0FieldWord e) = false := by
  have basis (i : Nat) (hi : i < 12) : xorBits (c0FieldWord e &&& c0FieldWord (BitVec.twoPow 12 i)) = false := by
    induction e using flip_induction with
    | zero => rw [c0FieldWord_zero, BitVec.zero_and]; rfl
    | flip e j hj ih => rw [c0FieldWord_xor, xorBits_xor_and, ih, xorBits_basis_and_basis j hj i hi]; rfl
  induction d using flip_induction with
  | zero => rw [c0FieldWord_zero, BitVec.zero_and]; rfl
  | flip d i hi ih => rw [c0FieldWord_xor, xorBits_xor_and, ih, BitVec.and_comm, basis i hi]; rfl

/-- The number of 1 bits of a C0 field word is a multiple of 4: the extended code is doubly even. -/
theorem four_dvd_ones_c0FieldWord (d : BitVec 12) : 4 ∣ ones (c0FieldWord d) := by
  have basis : ∀ i, i < 12 → 4 ∣ ones (c0FieldWord (BitVec.twoPow 12 i)) := by decide +kernel
  induction d using flip_induction with
  | zero => rw [c0FieldWord_zero]; exact dvd_zero 4
  | flip d i hi ih =>
    have overlap := xorBits_c0FieldWord_and d (BitVec.twoPow 12 i)
    have even := Nat.mod_two_of_bodd (ones (c0FieldWord d &&& c0FieldWord (BitVec.twoPow 12 i)))
    rw [bodd_ones, overlap, Bool.toNat_false] at even
    have sum := ones_xor_add (c0FieldWord d) (c0FieldWord (BitVec.twoPow 12 i))
    have single := basis i hi
    rw [c0FieldWord_xor]
    omega

/-- The upper half of the C0 field word: the parity and the check bits. -/
def c0Upper (d : BitVec 12) : BitVec 12 := (c0FieldWord d).extractLsb' 12 12

/-- The C0 field word holds the data in its lower half (42_fec_field_encoder.md R131, R142). -/
theorem c0Upper_append (d : BitVec 12) : c0Upper d ++ d = c0FieldWord d := by
  refine BitVec.eq_of_getLsbD_eq fun i hi => ?_
  rw [BitVec.getLsbD_append, c0Upper, BitVec.getLsbD_extractLsb']
  split_ifs with low
  · exact (c0FieldWord_getLsbD d low).symm
  · have upper : i - 12 < 12 := by omega
    simp [upper, Nat.add_sub_cancel' (Nat.le_of_not_lt low)]

/-- The upper half determines the data: as the code is self-dual, data bit i is the XOR over the overlap of the upper
halves of the word and of data bit i alone. -/
theorem getLsbD_eq_xorBits_c0Upper_and (d : BitVec 12) (i : Nat) :
    d.getLsbD i = xorBits (c0Upper d &&& c0Upper (BitVec.twoPow 12 i)) := by
  have even := xorBits_c0FieldWord_and d (BitVec.twoPow 12 i)
  rw [← c0Upper_append, ← c0Upper_append] at even
  have halves := (xorBits_append _ _).symm.trans ((congrArg xorBits BitVec.and_append).symm.trans even)
  rw [xorBits_and_twoPow] at halves
  exact (bne_eq_false_iff_eq.mp halves).symm

/-- One or two data bits give a C0 field word of at least 8 bits. -/
theorem eight_le_ones_of_few_data {d : BitVec 12} (h : d ≠ 0#12) (few : ones d ≤ 2) :
    8 ≤ ones (c0FieldWord d) := by
  have single : ∀ i, i < 12 → 8 ≤ ones (c0FieldWord (0#12 ^^^ BitVec.twoPow 12 i)) := by decide +kernel
  have double : ∀ i, i < 12 → ∀ j, j < 12 →
      0#12 ^^^ BitVec.twoPow 12 j ^^^ BitVec.twoPow 12 i = 0#12 ∨
        8 ≤ ones (c0FieldWord (0#12 ^^^ BitVec.twoPow 12 j ^^^ BitVec.twoPow 12 i)) := by decide +kernel
  match hd : ones d with
  | 0 => exact absurd (ones_eq_zero_iff.mp hd) h
  | 1 =>
    obtain ⟨u, i, hi, hu, rfl⟩ := exists_eq_flip hd
    obtain rfl := ones_eq_zero_iff.mp hu
    exact single i hi
  | 2 =>
    obtain ⟨v, i, hi, hv, rfl⟩ := exists_eq_flip hd
    obtain ⟨u, j, hj, hu, rfl⟩ := exists_eq_flip hv
    obtain rfl := ones_eq_zero_iff.mp hu
    exact (double i hi j hj).resolve_left h
  | k + 3 => omega

/-- An upper half of at most one bit comes from the data 0 or from at least 7 data bits: with upper bit j alone, data
bit i is bit j of the upper half of data bit i alone. -/
theorem seven_le_ones_of_few_upper {d : BitVec 12} (h : d ≠ 0#12) (few : ones (c0Upper d) ≤ 1) : 7 ≤ ones d := by
  have column : ∀ j, j < 12 →
      7 ≤ ∑ i ∈ Finset.range 12, ((c0Upper (BitVec.twoPow 12 i)).getLsbD j).toNat := by decide +kernel
  match hu : ones (c0Upper d) with
  | 0 =>
    refine absurd (BitVec.eq_of_getLsbD_eq fun i _ => ?_) h
    rw [getLsbD_eq_xorBits_c0Upper_and, ones_eq_zero_iff.mp hu, BitVec.zero_and, BitVec.getLsbD_zero]
    rfl
  | 1 =>
    obtain ⟨u, j, hj, hzero, hup⟩ := exists_eq_flip hu
    rw [ones_eq_zero_iff.mp hzero, BitVec.zero_xor] at hup
    have bits (i : Nat) : d.getLsbD i = (c0Upper (BitVec.twoPow 12 i)).getLsbD j := by
      rw [getLsbD_eq_xorBits_c0Upper_and, hup, BitVec.and_comm, xorBits_and_twoPow]
    simpa only [ones_eq_sum, bits] using column j hj
  | k + 2 => omega

/-- C0 field words of data other than 0 have at least 8 bits: there is no such word of 4 bits, as one of its halves
would have too few (42_fec_field_encoder.md R134). -/
theorem eight_le_ones_c0FieldWord {d : BitVec 12} (h : d ≠ 0#12) : 8 ≤ ones (c0FieldWord d) := by
  have halves : ones (c0FieldWord d) = ones (c0Upper d) + ones d := by
    rw [← c0Upper_append]
    exact ones_append _ _
  have four := four_dvd_ones_c0FieldWord d
  by_cases few : ones d ≤ 2
  · exact eight_le_ones_of_few_data h few
  · have few_upper := seven_le_ones_of_few_upper h
    omega

/-- The parity bit adds at most one bit to a codeword. -/
theorem ones_c0FieldWord_le (d : BitVec 12) : ones (c0FieldWord d) ≤ ones (golay d) + 1 := by
  have bit (b : Bool) : ones (BitVec.ofBool b) ≤ 1 := by cases b <;> decide
  have parts := ones_append (BitVec.ofBool (xorBits (golay d))) (golay d)
  rw [c0FieldWord_eq_append, parts, Nat.add_comm]
  exact Nat.add_le_add_left (bit _) _

/-- Settles O24: the two words differ in the bits of the word of `d ^^^ e`, which has at least 8 of them, one being
the parity bit at most. -/
theorem golayCodewordsKeepTheirDistance : Obligations.GolayCodewordsKeepTheirDistance := by
  intro d e h
  have other : d ^^^ e ≠ 0#12 := fun zero => h (BitVec.xor_eq_zero_iff.mp zero)
  have eight := eight_le_ones_c0FieldWord other
  have one := ones_c0FieldWord_le (d ^^^ e)
  rw [distance, distance, ← golay_xor, ← c0FieldWord_xor]
  omega

end Sys2Proof.Machine
end

section
/-! SUPPORT. The spheres of radius 3 around the codewords are disjoint and cover the 23-bit words
(42_fec_field_encoder.md R134). -/

namespace Sys2Proof.Machine

open Sys2Proof Sys2Proof.Claims

/-- No two codewords lie within 3 bits of the same word, as they would differ in at most 6 bits. -/
theorem eq_of_near {w : BitVec 23} {d e : BitVec 12} (hd : distance w (golay d) ≤ 3)
    (he : distance w (golay e) ≤ 3) : d = e := by
  by_contra other
  obtain ⟨far, -⟩ := golayCodewordsKeepTheirDistance d e other
  have through : golay d ^^^ golay e = (w ^^^ golay d) ^^^ (w ^^^ golay e) := by
    have pairs : (w ^^^ golay d) ^^^ (w ^^^ golay e) = (w ^^^ w) ^^^ (golay d ^^^ golay e) := by ac_rfl
    rw [pairs, BitVec.xor_self, BitVec.zero_xor]
  have near := ones_xor_add (w ^^^ golay d) (w ^^^ golay e)
  rw [distance, through] at far
  rw [distance] at hd he
  omega

/-- The word with 1 bits at the positions of a set. -/
def errorWord (S : Finset (Fin 23)) : BitVec 23 := BitVec.ofFnLE fun i => decide (i ∈ S)

/-- The bits of an error word. -/
theorem errorWord_getLsbD (S : Finset (Fin 23)) (i : Fin 23) : (errorWord S).getLsbD i = decide (i ∈ S) := by
  simp [errorWord]

/-- Different sets of positions give different words. -/
theorem errorWord_injective : Function.Injective errorWord := fun S T h => by
  ext i
  rw [← decide_eq_decide, ← errorWord_getLsbD, ← errorWord_getLsbD, h]

/-- A word has as many 1 bits as there are positions in its set. -/
theorem ones_errorWord (S : Finset (Fin 23)) : ones (errorWord S) = S.card := by
  rw [ones_eq_sum, Finset.sum_range]
  simp only [errorWord_getLsbD, Bool.toNat, Bool.cond_decide, Finset.sum_boole, Finset.filter_univ_mem, Nat.cast_id]

/-- The errors of at most 3 bits, as sets of bit positions. -/
def errorSets : Finset (Finset (Fin 23)) := (Finset.range 4).biUnion fun k => Finset.univ.powersetCard k

/-- These errors have at most 3 bits. -/
theorem ones_errorWord_le {S : Finset (Fin 23)} (h : S ∈ errorSets) : ones (errorWord S) ≤ 3 := by
  obtain ⟨k, hk, hS⟩ := Finset.mem_biUnion.mp h
  rw [ones_errorWord, (Finset.mem_powersetCard.mp hS).2]
  exact Nat.le_of_lt_succ (Finset.mem_range.mp hk)

/-- There are 1 + 23 + 253 + 1771 = 2048 errors of at most 3 bits (42_fec_field_encoder.md R134). -/
theorem card_errorSets : errorSets.card = 2 ^ 11 := by
  rw [errorSets, Finset.card_biUnion fun i _ j _ h => Finset.pairwise_disjoint_powersetCard _ h]
  simp only [Finset.card_powersetCard, Finset.card_univ, Fintype.card_fin]
  decide

/-- The number of words of n bits. -/
theorem card_bitVec (n : Nat) : Fintype.card (BitVec n) = 2 ^ n := by
  rw [← FinEnum.card_eq_fintypeCard, FinEnum.card_bitVec]

/-- The word an error makes of the codeword of some data. -/
def received (p : BitVec 12 × errorSets) : BitVec 23 := golay p.1 ^^^ errorWord p.2

/-- A received word lies in the sphere of radius 3 around its codeword. -/
theorem distance_received_le (p : BitVec 12 × errorSets) : distance (received p) (golay p.1) ≤ 3 := by
  have error : received p ^^^ golay p.1 = errorWord p.2 := by
    rw [received, BitVec.xor_comm, ← BitVec.xor_assoc, BitVec.xor_self, BitVec.zero_xor]
  rw [distance, error]
  exact ones_errorWord_le p.2.property

/-- The spheres around the codewords are disjoint (42_fec_field_encoder.md R134). -/
theorem received_injective : Function.Injective received := by
  rintro ⟨d, S⟩ ⟨e, T⟩ h
  have near := distance_received_le (d, S)
  rw [h] at near
  obtain rfl : d = e := eq_of_near near (distance_received_le (e, T))
  have errors : errorWord S = errorWord T := (BitVec.xor_right_inj _).mp h
  rw [Subtype.ext (errorWord_injective errors)]

/-- The spheres cover every word: 4096 of 2048 words each make 2^23 (42_fec_field_encoder.md R134). -/
theorem received_surjective : Function.Surjective received := by
  refine ((Fintype.bijective_iff_injective_and_card received).mpr ⟨received_injective, ?_⟩).surjective
  rw [Fintype.card_prod, Fintype.card_coe, card_errorSets, card_bitVec, card_bitVec]
  rfl

/-- Settles O25: the spheres of radius 3 around the codewords cover every word and are disjoint. -/
theorem golayCodeIsPerfect : Obligations.GolayCodeIsPerfect := by
  intro w
  obtain ⟨p, rfl⟩ := received_surjective w
  exact ⟨p.1, distance_received_le p, fun e he => eq_of_near he (distance_received_le p)⟩

end Sys2Proof.Machine
end

section
/-! SUPPORT. Field assembly (42_fec_field_encoder.md R140 to R150): the fields are neighbouring parts of the vector,
the matrix is the sum of its rows, and each element of the vector has its cell. -/

namespace Sys2Proof.Machine

open Sys2Proof Sys2Proof.Claims

/-- A field of m elements from element k on is m neighbouring bits of the vector (42_fec_field_encoder.md R141). -/
theorem ofSeq_field_eq_extractLsb' (v : Ambe49) {k m start : Nat} (h : start + m + k = 49) :
    (ofSeq m fun i => v.getMsbD (k + i)) = v.extractLsb' start m := by
  refine eq_of_elements fun i hi => ?_
  have inside : k + i < 49 := by omega
  have place : 49 - 1 - (k + i) = start + (m - 1 - i) := by omega
  have low : m - 1 - i < m := by omega
  rw [getMsbD_ofSeq, BitVec.getMsbD, BitVec.getMsbD, place, BitVec.getLsbD_extractLsb']
  simp only [hi, inside, low, decide_true, Bool.true_and]

/-- `d0` is the top 12 bits of the vector (42_fec_field_encoder.md R141). -/
theorem fieldC0_eq_extractLsb' (v : Ambe49) : fieldC0 v = v.extractLsb' 37 12 := by
  rw [← ofSeq_field_eq_extractLsb' v (k := 0) rfl]
  exact ofSeq_congr fun i _ => by rw [Nat.zero_add]

/-- `d1` is the next 12 bits (42_fec_field_encoder.md R141). -/
theorem fieldC1_eq_extractLsb' (v : Ambe49) : fieldC1 v = v.extractLsb' 25 12 := ofSeq_field_eq_extractLsb' v rfl

/-- `d2` is the next 11 bits (42_fec_field_encoder.md R141). -/
theorem fieldC2_eq_extractLsb' (v : Ambe49) : fieldC2 v = v.extractLsb' 14 11 := ofSeq_field_eq_extractLsb' v rfl

/-- `d3` is the low 14 bits (42_fec_field_encoder.md R141). -/
theorem fieldC3_eq_extractLsb' (v : Ambe49) : fieldC3 v = v.extractLsb' 0 14 := ofSeq_field_eq_extractLsb' v rfl

/-- A matrix as a number is the weighted sum of its rows (10_state.md R36). -/
theorem matrix_toNat (M : FrameMatrix) :
    M.toNat = (rowval M 0).toNat * 2 ^ 72 + (rowval M 1).toNat * 2 ^ 48 + (rowval M 2).toNat * 2 ^ 24 +
      (rowval M 3).toNat := by
  obtain ⟨rows, -⟩ := matrixIsItsRows M
  have sum := congrArg BitVec.toNat rows
  rw [toNat_append_eq_mul_add, toNat_append_eq_mul_add, toNat_append_eq_mul_add] at sum
  exact sum.trans (by ring)

/-- The assembled matrix as a number (42_fec_field_encoder.md R147). -/
theorem assemble_toNat (v : Ambe49) :
    (assemble v).toNat = (c0FieldWord (fieldC0 v)).toNat * 2 ^ 72 + (golay (fieldC1 v)).toNat * 2 ^ 48 +
      (fieldC2 v).toNat * 2 ^ 24 + (fieldC3 v).toNat := by
  rw [matrix_toNat, rowval_assemble_zero, rowval_assemble_one, rowval_assemble_two, rowval_assemble_three,
    BitVec.toNat_setWidth_of_le (by decide), BitVec.toNat_setWidth_of_le (by decide),
    BitVec.toNat_setWidth_of_le (by decide)]

/-- Settles O28: the fields are cut from the vector, which is OPND[48:0], the four rows are known, and a matrix is
the weighted sum of its rows. -/
theorem assembleIsTheRowSum : Obligations.AssembleIsTheRowSum := by
  refine ⟨fun v => ?rows, fun s opnd => ?result⟩
  case rows =>
    rw [← fieldC0_eq_extractLsb', ← fieldC1_eq_extractLsb', ← fieldC2_eq_extractLsb', ← fieldC3_eq_extractLsb']
    exact ⟨rowval_assemble_zero v, rowval_assemble_one v, rowval_assemble_two v, rowval_assemble_three v⟩
  case result =>
    have field (start len : Nat) (h : start + len ≤ 49) :
        opnd.extractLsb' start len = (operandVector opnd).extractLsb' start len := by
      rw [operandVector, BitVec.extractLsb'_extractLsb'_of_le h]
    rw [field 37 12 (by decide), field 25 12 (by decide), field 14 11 (by decide), field 0 14 (by decide),
      ← fieldC0_eq_extractLsb', ← fieldC1_eq_extractLsb', ← fieldC2_eq_extractLsb', ← fieldC3_eq_extractLsb',
      ← assemble_toNat, BitVec.ofNat_toNat, BitVec.setWidth_eq]
    exact exec_assemble opnd s

/-- A cell of the assembled row 1 is a bit of the C1 codeword (42_fec_field_encoder.md R143). -/
theorem cell_assemble_one (v : Ambe49) {c : Nat} (h1 : 1 ≤ c) (hc : c < 24) :
    cell (assemble v) 1 c = (golay (fieldC1 v)).getLsbD (23 - c) := by
  rw [cell_assemble v (by omega) hc, assembleCell, if_pos h1]

/-- A codeword in columns 1 to 23 has its check bits in columns 1 to 11, bit 10 first (42_fec_field_encoder.md R142,
R143). -/
theorem golay_getLsbD_check (d : BitVec 12) {j : Nat} (hj : j ≤ 10) :
    (golay d).getLsbD (23 - (1 + j)) = (golayCheck d).getLsbD (10 - j) := by
  have upper : ¬ 23 - (1 + j) < 12 := by omega
  have inside : 23 - (1 + j) < 23 := by omega
  have place : 23 - (1 + j) - 12 = 10 - j := by omega
  rw [golay_getLsbD, if_neg upper, place, decide_eq_true inside, Bool.true_and]

/-- Below the parity bit the C0 field word is the codeword (42_fec_field_encoder.md R142). -/
theorem c0FieldWord_getLsbD_codeword (d : BitVec 12) {i : Nat} (hi : i < 23) :
    (c0FieldWord d).getLsbD i = (golay d).getLsbD i := by
  rw [c0FieldWord_eq_append, BitVec.getLsbD_append, if_pos hi]

/-- The top bit of the C0 field word is the codeword's parity (42_fec_field_encoder.md R142). -/
theorem c0FieldWord_getLsbD_parity (d : BitVec 12) :
    (c0FieldWord d).getLsbD 23 = parity ((golay d).setWidth 24) := by
  rw [c0FieldWord_eq_append, BitVec.getLsbD_append, parity_eq_xorBits, xorBits_setWidth]
  simp

/-- Element i of the vector stands in row 1, column i (42_fec_field_encoder.md R150). -/
theorem cell_assemble_data_one (v : Ambe49) {i : Nat} (h : 12 ≤ i) (h' : i ≤ 23) :
    cell (assemble v) 1 i = v.getMsbD i := by
  have low : 23 - i < 12 := by omega
  have element : 12 + (12 - 1 - (23 - i)) = i := by omega
  rw [cell_assemble_one v (by omega) (by omega), golay_getLsbD, if_pos low, fieldC1, getLsbD_ofSeq, element,
    decide_eq_true low, Bool.true_and]

/-- Element i of the vector stands in row 2, column i - 11 (42_fec_field_encoder.md R150). -/
theorem cell_assemble_data_two (v : Ambe49) {i : Nat} (h : 24 ≤ i) (h' : i ≤ 34) :
    cell (assemble v) 2 (i - 11) = v.getMsbD i := by
  rw [cell_assemble v (by omega) (by omega), assembleCell, if_pos (by omega), Nat.sub_add_cancel (by omega)]

/-- Element i of the vector stands in row 3, column i - 25 (42_fec_field_encoder.md R150). -/
theorem cell_assemble_data_three (v : Ambe49) {i : Nat} (h : 35 ≤ i) (h' : i ≤ 48) :
    cell (assemble v) 3 (i - 25) = v.getMsbD i := by
  rw [cell_assemble v (by omega) (by omega), assembleCell, if_pos (by omega), Nat.sub_add_cancel (by omega)]

/-- Settles O29: row 0 is the C0 field word, row 1 the C1 codeword, and each element of the vector has its cell. -/
theorem assemblePlacesEveryElement : Obligations.AssemblePlacesEveryElement := by
  refine ⟨fun v => ?_, fun v i => ⟨fun h => cell_assemble_data v (by omega), cell_assemble_data_one v,
    cell_assemble_data_two v, cell_assemble_data_three v⟩⟩
  rw [← fieldC0_eq_extractLsb', ← fieldC1_eq_extractLsb']
  refine ⟨?parity, fun j hj => ⟨?check0, ?check1⟩⟩
  case parity =>
    rw [cell_assemble v (by omega) (by omega)]
    exact c0FieldWord_getLsbD_parity _
  case check0 =>
    rw [cell_assemble v (by omega) (by omega), assembleCell, c0FieldWord_getLsbD_codeword _ (by omega),
      golay_getLsbD_check _ hj]
  case check1 =>
    rw [cell_assemble_one v (by omega) (by omega), golay_getLsbD_check _ hj]

/-- Settles O30: assembly leaves the cells outside P at 0, and P is counted. -/
theorem unpopulatedCellsAreZero : Obligations.UnpopulatedCellsAreZero :=
  ⟨fun v _ _ hr hc => cell_assemble_unpopulated v hr hc, by decide⟩

end Sys2Proof.Machine
end

section
/-! SUPPORT. ENCODE loses nothing: each stage can be undone (42_fec_field_encoder.md R150, 43_scrambler.md R166,
44_interleaver.md R187). -/

namespace Sys2Proof.Machine

open Sys2Proof Sys2Proof.Claims

/-- Matrices the interleaver sends to the same bytes agree on the populated cells (44_interleaver.md R187). -/
theorem agreeOnP_of_resultBytes_interleave_eq (p : Perm) {M N : FrameMatrix}
    (h : resultBytes (interleave p M) = resultBytes (interleave p N)) : agreeOnP M N := by
  intro r c hp
  obtain ⟨j, -, bit⟩ := exists_result_bit_of_populated p hp
  rw [← bit M, ← bit N, h]

/-- Scrambling leaves row 0 alone, so matrices that agree in row 0 have one seed (43_scrambler.md R160, R166). -/
theorem seed_eq_of_agreeOnP_scramble {M N : FrameMatrix} (h : agreeOnP (scramble M) (scramble N)) :
    seed M = seed N := by
  rw [seed_eq_ofSeq_toNat, seed_eq_ofSeq_toNat]
  refine congrArg BitVec.toNat (ofSeq_congr fun i hi => ?_)
  have column : 12 + i < 24 := by omega
  rw [← cell_scramble_row0 M column, ← cell_scramble_row0 N column]
  exact h 0 (12 + i) (decide_eq_true (by omega))

/-- Scrambled matrices that agree on the populated cells come from matrices that do (43_scrambler.md R166). -/
theorem agreeOnP_of_scramble {M N : FrameMatrix} (h : agreeOnP (scramble M) (scramble N)) : agreeOnP M N := by
  intro r c hp
  obtain ⟨hr, hc⟩ := lt_of_populated hp
  have cells := h r c hp
  rw [cell_scramble M hr hc, cell_scramble N hr hc, seed_eq_of_agreeOnP_scramble h] at cells
  split_ifs at cells
  · exact Bool.xor_left_inj.mp cells
  · exact cells

/-- Every element of the vector has its populated cell, whatever the vector (42_fec_field_encoder.md R150). -/
theorem exists_cell_of_element {i : Nat} (hi : i < 49) :
    ∃ r c, populated r c = true ∧ ∀ v : Ambe49, cell (assemble v) r c = v.getMsbD i := by
  have field : i < 12 ∨ (12 ≤ i ∧ i ≤ 23) ∨ (24 ≤ i ∧ i ≤ 34) ∨ (35 ≤ i ∧ i ≤ 48) := by omega
  obtain c0 | ⟨h, h'⟩ | ⟨h, h'⟩ | ⟨h, h'⟩ := field
  · exact ⟨0, 12 + i, decide_eq_true (by omega), fun v => cell_assemble_data v c0⟩
  · exact ⟨1, i, decide_eq_true (by omega), fun v => cell_assemble_data_one v h h'⟩
  · exact ⟨2, i - 11, decide_eq_true (by omega), fun v => cell_assemble_data_two v h h'⟩
  · exact ⟨3, i - 25, decide_eq_true (by omega), fun v => cell_assemble_data_three v h h'⟩

/-- Assembled matrices that agree on the populated cells come from one vector (42_fec_field_encoder.md R150). -/
theorem eq_of_agreeOnP_assemble {v w : Ambe49} (h : agreeOnP (assemble v) (assemble w)) : v = w := by
  refine eq_of_elements fun i hi => ?_
  obtain ⟨r, c, hp, element⟩ := exists_cell_of_element hi
  rw [← element v, ← element w, h r c hp]

/-- Settles O47: the interleaver's bytes give the scrambled cells back, row 0 of those the seed and with it the
cells before scrambling, and these the vector. -/
theorem encodeIsInjective : Obligations.EncodeIsInjective := by
  intro s t u a b ht hu h
  rw [exec_encode_seven] at ht hu
  obtain rfl := Host.Outcome.next.inj ht
  obtain rfl := Host.Outcome.next.inj hu
  exact eq_of_agreeOnP_assemble
    (agreeOnP_of_scramble (agreeOnP_of_resultBytes_interleave_eq s.perm (congrArg Resp.result h)))

end Sys2Proof.Machine
end

section
/-! SUPPORT. The generator and its key bits (43_scrambler.md R160 to R162, R169): every value is 16 bits, every key bit
is 0 or 1, and flipping the top bit of the seed flips every key bit. -/

namespace Sys2Proof.Machine

open Sys2Proof

/-- The recurrence (43_scrambler.md R161). -/
theorem pr_succ (s k : Nat) : pr s (k + 1) = (173 * pr s k + 13849) % 65536 := rfl

/-- Every value of the generator is 16 bits, the scaled seed included (43_scrambler.md R160, R161). -/
theorem pr_lt {s : Nat} (hs : s < 4096) (k : Nat) : pr s k < 65536 := by
  cases k with
  | zero => rw [pr]; omega
  | succ k => exact Nat.mod_lt _ (by decide)

/-- A key bit is the quotient by 32768 (43_scrambler.md R162). -/
theorem key_eq_div (s k : Nat) : key s k = pr s k / 32768 := rfl

/-- A key bit is 0 or 1 (43_scrambler.md R162). -/
theorem key_le_one {s : Nat} (hs : s < 4096) (k : Nat) : key s k ≤ 1 := by
  have := pr_lt hs k
  rw [key_eq_div]
  omega

/-- A key bit is bit 15 of its value (43_scrambler.md R162). -/
theorem key_eq_getLsbD {s : Nat} (hs : s < 4096) (k : Nat) :
    key s k = ((BitVec.ofNat 16 (pr s k)).getLsbD 15).toNat := by
  have small := key_le_one hs k
  rw [BitVec.getLsbD_ofNat, decide_eq_true (by decide), Bool.true_and, Nat.toNat_testBit]
  exact (Nat.mod_eq_of_lt (by omega)).symm

/-- Element k - 1 of the keystream is `key(k)` (43_scrambler.md R162). -/
theorem keystream_getD (s : Nat) {k : Nat} (h1 : 1 ≤ k) (h23 : k ≤ 23) :
    (keystream s).getD (k - 1) 0 = key s k := by
  have place : 1 + (k - 1) = k := by omega
  have inside : k - 1 < 23 := by omega
  simp [keystream, place, inside]

/-- Settles O32: the generator runs modulo 2^16, so the quotient by 2^15 is bit 15. -/
theorem keyIsTheTopBit : Obligations.KeyIsTheTopBit := by
  refine fun s hs => ⟨rfl, pr_lt hs 0, List.length_map .., fun k h1 h23 => ?_⟩
  obtain ⟨j, rfl⟩ := Nat.exists_eq_add_of_le' h1
  exact ⟨pr_succ s j, pr_lt hs _, rfl, key_eq_getLsbD hs _, keystream_getD s h1 h23⟩

/-- Flipping bit 11 of a 12-bit value adds 2^11 modulo 2^12. -/
theorem xor_0x800_eq {s : Nat} (hs : s < 4096) : s ^^^ 0x800 = (s + 0x800) % 4096 := by
  have high : (s ^^^ 0x800) / 2 ^ 11 = s / 2 ^ 11 ^^^ 1 := Nat.xor_div_two_pow
  have low : (s ^^^ 0x800) % 2 ^ 11 = s % 2 ^ 11 := Nat.xor_mod_two_pow.trans (Nat.xor_zero _)
  obtain h | h : s / 2 ^ 11 = 0 ∨ s / 2 ^ 11 = 1 := by omega
  · rw [h, Nat.zero_xor] at high
    omega
  · rw [h, Nat.xor_self] at high
    omega

/-- Flipping bit 11 of a seed gives a seed. -/
theorem xor_0x800_lt {s : Nat} (hs : s < 4096) : s ^^^ 0x800 < 4096 := by
  rw [xor_0x800_eq hs]
  exact Nat.mod_lt _ (by decide)

/-- Two seeds that differ in bit 11 have values 2^15 apart: `16 * 0x800 = 2^15`, and 173 is odd
(43_scrambler.md R169). -/
theorem pr_xor_0x800_mod {s : Nat} (hs : s < 4096) (k : Nat) :
    pr (s ^^^ 0x800) k % 65536 = (pr s k + 32768) % 65536 := by
  induction k with
  | zero =>
    rw [pr, pr, xor_0x800_eq hs]
    omega
  | succ k ih =>
    rw [pr_succ, pr_succ]
    omega

/-- Flipping bit 11 of the seed flips every key bit (43_scrambler.md R169). -/
theorem key_xor_0x800 {s : Nat} (hs : s < 4096) (k : Nat) : key (s ^^^ 0x800) k = 1 - key s k := by
  have apart := pr_xor_0x800_mod hs k
  have small := pr_lt hs k
  have small' := pr_lt (xor_0x800_lt hs) k
  rw [key_eq_div, key_eq_div]
  omega

/-- Settles O37: every key bit flips, as bit 15 does under the addition of 2^15. -/
theorem keystreamComplement : Obligations.KeystreamComplement := by
  intro s hs
  rw [keystream, keystream, List.map_map]
  exact List.map_congr_left fun k _ => key_xor_0x800 hs k

end Sys2Proof.Machine
end

section
/-! SUPPORT. The number of ones of a keystream, and keystreams apart (43_scrambler.md R168), by evaluation of one seed
of each complementary pair; the complement (R169) gives the other. -/

namespace Sys2Proof.Machine

open Sys2Proof

/-- The number of ones among the n key bits after the value x, added to `acc`. -/
def onesAfter : Nat → Nat → Nat → Nat
  | 0, _, acc => acc
  | n + 1, x, acc =>
    onesAfter n ((lcgA * x + lcgC) % lcgM) (acc + (lcgA * x + lcgC) % lcgM / keyDivisor)

/-- One value of the generator counts its key bit. -/
theorem onesAfter_succ_pr (s n k acc : Nat) :
    onesAfter (n + 1) (pr s k) acc = onesAfter n (pr s (k + 1)) (acc + key s (k + 1)) := by
  rw [onesAfter, key, pr]

/-- After `pr(k)` come the key bits from k + 1 on. -/
theorem onesAfter_pr (s n k acc : Nat) :
    onesAfter n (pr s k) acc = acc + ((List.range' (k + 1) n).map (key s)).sum := by
  induction n generalizing k acc with
  | zero => rfl
  | succ n ih =>
    rw [onesAfter_succ_pr, ih, List.range'_succ, List.map_cons, List.sum_cons, Nat.add_assoc]

/-- The seeds below 0x800 have 4 to 19 ones (43_scrambler.md R168). -/
theorem keystream_sum_of_lt_0x800 {s : Nat} (hs : s < 0x800) :
    4 ≤ (keystream s).sum ∧ (keystream s).sum ≤ 19 := by
  have evaluated : ∀ a, a < 32 → ∀ b, b < 64 →
      4 ≤ onesAfter 23 (16 * (64 * a + b)) 0 ∧ onesAfter 23 (16 * (64 * a + b)) 0 ≤ 19 := by decide +kernel
  have sum : onesAfter 23 (16 * s) 0 = (keystream s).sum := (onesAfter_pr s 23 0 0).trans (Nat.zero_add _)
  rw [← sum, ← Nat.div_add_mod s 64]
  exact evaluated _ (by omega) _ (by omega)

/-- Complementing a sequence of bits exchanges its ones and zeros. -/
theorem sum_map_one_sub {l : List Nat} (h : ∀ b ∈ l, b ≤ 1) : (l.map fun b => 1 - b).sum + l.sum = l.length := by
  induction l with
  | nil => rfl
  | cons b l ih =>
    have bit := h b List.mem_cons_self
    have rest := ih fun b' hb' => h b' (List.mem_cons_of_mem b hb')
    rw [List.map_cons, List.sum_cons, List.sum_cons, List.length_cons]
    omega

/-- Every keystream has 4 to 19 ones (43_scrambler.md R168). -/
theorem keystream_sum_bounds {s : Nat} (hs : s < 4096) : 4 ≤ (keystream s).sum ∧ (keystream s).sum ≤ 19 := by
  obtain low | high := Nat.lt_or_ge s 0x800
  · exact keystream_sum_of_lt_0x800 low
  · have bits : ∀ b ∈ keystream s, b ≤ 1 := by
      intro b hb
      obtain ⟨k, -, rfl⟩ := List.mem_map.mp hb
      exact key_le_one hs k
    have length : (keystream s).length = 23 := List.length_map ..
    have total := sum_map_one_sub bits
    rw [← keystreamComplement s hs, length] at total
    have partner := keystream_sum_of_lt_0x800 (s := s ^^^ 0x800) (by rw [xor_0x800_eq hs]; omega)
    omega

/-- Splitting the seeds `l` by their key bits, the k of `ks` one after another, leaves no two seeds together. -/
def separated : List Nat → List Nat → Bool
  | _, [] => true
  | _, [_] => true
  | [], _ :: _ :: _ => false
  | k :: ks, l =>
    separated ks (l.filter fun s => key s k = 0) && separated ks (l.filter fun s => ¬ key s k = 0)

/-- Separated seeds with the same key bits are one seed. -/
theorem eq_of_separated {ks l : List Nat} (h : separated ks l) {s t : Nat} (hs : s ∈ l) (ht : t ∈ l)
    (keys : ∀ k ∈ ks, key s k = key t k) : s = t := by
  fun_induction separated ks l with
  | case1 => cases hs
  | case2 => rw [List.mem_singleton.mp hs, List.mem_singleton.mp ht]
  | case3 => cases h
  | case4 k ks l _ _ ihZero ihOne =>
    obtain ⟨hZero, hOne⟩ := Bool.and_eq_true_iff.mp h
    have first := keys k List.mem_cons_self
    have rest := fun j hj => keys j (List.mem_cons_of_mem k hj)
    by_cases bit : key s k = 0
    · exact ihZero hZero (by simp [hs, bit]) (by simp [ht, ← first, bit]) rest
    · exact ihOne hOne (by simp [hs, bit]) (by simp [ht, ← first, bit]) rest

/-- Among the seeds whose first key bit is 0, different seeds have different keystreams (43_scrambler.md R168). -/
theorem eq_of_keystream_eq_of_key_one {s t : Nat} (hs : s < 4096) (ht : t < 4096) (hs1 : key s 1 = 0)
    (h : keystream s = keystream t) : s = t := by
  have evaluated : separated (List.range' 1 23) ((List.range 4096).filter fun s => key s 1 = 0) := by decide +kernel
  have keys : ∀ k ∈ List.range' 1 23, key s k = key t k := List.map_inj_left.mp h
  have ht1 : key t 1 = 0 := (keys 1 (by decide)).symm.trans hs1
  exact eq_of_separated evaluated (by simp [hs, hs1]) (by simp [ht, ht1]) keys

/-- Different seeds have different keystreams (43_scrambler.md R168). -/
theorem eq_of_keystream_eq {s t : Nat} (hs : s < 4096) (ht : t < 4096) (h : keystream s = keystream t) : s = t := by
  by_cases first : key s 1 = 0
  · exact eq_of_keystream_eq_of_key_one hs ht first h
  · have complements : s ^^^ 0x800 = t ^^^ 0x800 := by
      refine eq_of_keystream_eq_of_key_one (xor_0x800_lt hs) (xor_0x800_lt ht) ?_ ?_
      · rw [key_xor_0x800 hs]
        omega
      · rw [keystreamComplement s hs, keystreamComplement t ht, h]
    rw [xor_0x800_eq hs, xor_0x800_eq ht] at complements
    omega

/-- Settles O36: the ones are counted and the keystreams told apart on one seed of every complementary pair. -/
theorem keystreamsAreNeverBlank : Obligations.KeystreamsAreNeverBlank :=
  ⟨fun _ => keystream_sum_bounds, fun _ _ => eq_of_keystream_eq, by decide⟩

end Sys2Proof.Machine
end

section
/-! SUPPORT. Scrambling as the XOR of one word (43_scrambler.md R160, R164, R166, R167). -/

namespace Sys2Proof.Machine

open Sys2Proof Sys2Proof.Claims

/-- The seed is the low half of row 0 (43_scrambler.md R160). -/
theorem seed_eq_rowval (M : FrameMatrix) : seed M = ((rowval M 0).extractLsb' 0 12).toNat := by
  rw [seed_eq_ofSeq_toNat]
  refine congrArg BitVec.toNat (eq_of_elements fun i hi => ?_)
  have low : 12 - 1 - i < 12 := by omega
  have column : 0 + (12 - 1 - i) = 23 - (12 + i) := by omega
  rw [getMsbD_ofSeq, BitVec.getMsbD, BitVec.getLsbD_extractLsb', decide_eq_true low, Bool.true_and, column,
    rowval_getLsbD M 0 (12 + i) (by omega)]

/-- The seed is bits 83:72 of the matrix (43_scrambler.md R160). -/
theorem seed_eq_extractLsb' (M : FrameMatrix) : seed M = (M.extractLsb' 72 12).toNat := by
  refine (seed_eq_rowval M).trans (congrArg BitVec.toNat (BitVec.eq_of_getLsbD_eq fun i hi => ?_))
  have inside : i < 24 := by omega
  rw [rowval_eq_extractLsb' M (r := 0) (start := 72) rfl]
  simp [hi, inside]

/-- A seed is 12 bits (43_scrambler.md R160). -/
theorem seed_lt (M : FrameMatrix) : seed M < 4096 := by
  rw [seed_eq_rowval]
  exact BitVec.isLt _

/-- Settles O35: the seed is the low half of row 0, and of an assembled matrix that half is `d0`, a function of
`v(0..11)`. -/
theorem seedIsTheC0Data : Obligations.SeedIsTheC0Data := by
  refine ⟨fun M => ⟨seed_eq_extractLsb' M, seed_eq_rowval M, ?scaled, pr_lt (seed_lt M) 0⟩, fun v => ?data,
    fun v w h => ?keystreams⟩
  case scaled => rw [pr, seed_eq_extractLsb']
  case data => rw [seed_assemble, fieldC0_eq_extractLsb']
  case keystreams =>
    have field : fieldC0 v = fieldC0 w := ofSeq_congr fun i hi => h i (by omega)
    rw [seed_assemble, seed_assemble, field]

/-- The weights of a number's 1 bits below bit n sum to its remainder by 2^n. -/
theorem mod_two_pow_eq_sum (x n : Nat) :
    x % 2 ^ n = ((List.range n).map fun k => (x.testBit k).toNat * 2 ^ k).sum := by
  induction n with
  | zero => exact Nat.mod_one x
  | succ n ih =>
    rw [List.range_succ, List.map_append, List.sum_append, ← ih, Nat.mod_pow_succ, ← Nat.toNat_testBit,
      Nat.mul_comm, List.map_singleton, List.sum_singleton]

/-- Bit k of the key bits' row is `key(k)`, bit 0 being 0 (43_scrambler.md R164). -/
theorem keyRow_getLsbD_toNat {s : Nat} (hs : s < 4096) {k : Nat} (hk : k < 24) :
    ((keyRow s).getLsbD k).toNat = if k = 0 then 0 else key s k := by
  have small := key_le_one hs k
  have column : 23 - (23 - k) = k := by omega
  have bit := keyRow_getLsbD s (c := 23 - k) (by omega)
  rw [column] at bit
  rw [bit]
  obtain rfl | pos := Nat.eq_zero_or_pos k
  · rfl
  · have inside : 23 - k ≤ 22 := by omega
    obtain zero | one := Nat.le_one_iff_eq_zero_or_eq_one.mp small
    · simp [zero]
    · simp [one, inside, pos.ne']

/-- The row of key bits as a number is `K(s)` (43_scrambler.md R164). -/
theorem keyRow_toNat {s : Nat} (hs : s < 4096) : (keyRow s).toNat = keySum s := by
  rw [← Nat.mod_eq_of_lt (keyRow s).isLt, mod_two_pow_eq_sum, List.range_eq_range', List.range'_succ, List.map_cons,
    List.sum_cons]
  have pad : ((keyRow s).toNat.testBit 0).toNat = 0 := keyRow_getLsbD_toNat hs (by decide)
  rw [pad, Nat.zero_mul, Nat.zero_add, keySum]
  refine congrArg List.sum (List.map_congr_left fun k hk => ?_)
  obtain ⟨h1, h24⟩ := List.mem_range'_1.mp hk
  exact congrArg (· * 2 ^ k) ((keyRow_getLsbD_toNat hs h24).trans (if_neg (by omega)))

/-- The key bits as a matrix: row 1 holds them and the other rows are 0 (43_scrambler.md R164). -/
def keyMatrix (s : Nat) : FrameMatrix := 0#24 ++ keyRow s ++ 0#24 ++ 0#24

/-- Row 1 stands above 48 bits of the matrix's value (43_scrambler.md R164). -/
theorem keyMatrix_eq_ofNat {s : Nat} (hs : s < 4096) : keyMatrix s = BitVec.ofNat 96 (keySum s * 2 ^ 48) := by
  have value : (keyMatrix s).toNat = keySum s * 2 ^ 48 := by
    rw [keyMatrix, toNat_append_eq_mul_add, toNat_append_eq_mul_add, toNat_append_eq_mul_add, keyRow_toNat hs]
    simp [Nat.mul_assoc]
  rw [← value, BitVec.ofNat_toNat, BitVec.setWidth_eq]

/-- Scrambling is one XOR over the whole matrix (43_scrambler.md R164). -/
theorem scramble_eq_xor (M : FrameMatrix) : scramble M = M ^^^ keyMatrix (seed M) := by
  have xored : (rowval M 0 ++ rowval M 1 ++ rowval M 2 ++ rowval M 3) ^^^ (0#24 ++ keyRow (seed M) ++ 0#24 ++ 0#24) =
      rowval M 0 ++ (rowval M 1 ^^^ keyRow (seed M)) ++ rowval M 2 ++ rowval M 3 := by
    simp only [BitVec.xor_append, BitVec.xor_zero]
  calc scramble M
      = rowval M 0 ++ (rowval M 1 ^^^ keyRow (seed M)) ++ rowval M 2 ++ rowval M 3 := by
        obtain ⟨rows, -⟩ := matrixIsItsRows (scramble M)
        rw [rows, rowval_scramble_one, rowval_scramble_of_ne_one M (by decide : 0 < 4) (by decide),
          rowval_scramble_of_ne_one M (by decide : 2 < 4) (by decide),
          rowval_scramble_of_ne_one M (by decide : 3 < 4) (by decide)]
    _ = M ^^^ keyMatrix (seed M) := by
        obtain ⟨rows, -⟩ := matrixIsItsRows M
        rw [← xored, ← rows, keyMatrix]

/-- Settles O33: the row of key bits is `K(Seed(M))`, its bit 0 is the unscrambled column 23, and the rows put
together give the 96-bit form. -/
theorem scrambleIsXorWithKeySum : Obligations.ScrambleIsXorWithKeySum := by
  refine ⟨fun M => ?rows, fun s opnd => ?command⟩
  case rows =>
    have sum := keyRow_toNat (seed_lt M)
    have pad : ((keyRow (seed M)).toNat.testBit 0).toNat = 0 := keyRow_getLsbD_toNat (seed_lt M) (by decide)
    rw [Nat.toNat_testBit, sum, Nat.pow_zero, Nat.div_one] at pad
    refine ⟨sum ▸ (keyRow (seed M)).isLt, pad, ?_, rowval_scramble_of_ne_one M (by decide) (by decide),
      rowval_scramble_of_ne_one M (by decide) (by decide), rowval_scramble_of_ne_one M (by decide) (by decide)⟩
    rw [← sum, BitVec.ofNat_toNat, BitVec.setWidth_eq]
    exact rowval_scramble_one M
  case command =>
    rw [← keyMatrix_eq_ofNat (seed_lt opnd), ← scramble_eq_xor]
    exact exec_scramble opnd s

/-- Scrambling keeps the seed, which lies in row 0 (43_scrambler.md R166). -/
theorem seed_scramble (M : FrameMatrix) : seed (scramble M) = seed M := by
  rw [seed_eq_rowval, seed_eq_rowval, rowval_scramble_of_ne_one M (by decide) (by decide)]

/-- The second XOR with the same key bits undoes the first (43_scrambler.md R166). -/
theorem scramble_scramble (M : FrameMatrix) : scramble (scramble M) = M := by
  rw [scramble_eq_xor (scramble M), seed_scramble, scramble_eq_xor, BitVec.xor_assoc, BitVec.xor_self,
    BitVec.xor_zero]

/-- Settles O34: SCRAMBLE's RESULT is its operand scrambled. -/
theorem scrambleTwiceRestores : Obligations.ScrambleTwiceRestores :=
  ⟨scramble_scramble, fun s opnd =>
    ⟨_, _, exec_scramble opnd s, exec_scramble _ _, scramble_scramble opnd⟩⟩

end Sys2Proof.Machine
end

section
/-! SUPPORT. The output stream as a list of cells: stream bit j is the cell of the j-th of the 72 cells PERM names,
these are the populated cells, each once, and deinterleaving puts each bit back in its cell (44_interleaver.md R182,
R186 to R188). -/

namespace Sys2Proof.Machine

open Sys2Proof Sys2Proof.Claims

/-- Settles O42: the interleaver reads only populated cells. -/
theorem unpopulatedCellsNeverReachTheOutput : Obligations.UnpopulatedCellsNeverReachTheOutput :=
  fun p _ _ h => interleave_congr_of_agreeOnP p h

/-- PERM names 72 cells (44_interleaver.md R181). -/
theorem cells_length (t : PermTable) : t.cells.length = 72 := by simp [PermTable.cells]

/-- PERM names exactly the populated cells (44_interleaver.md R182). -/
theorem mem_cells_iff_populated (p : Perm) (r c : Nat) : (r, c) ∈ p.table.cells ↔ populated r c = true :=
  ⟨populated_of_mem_cells p, mem_cells_of_populated p⟩

/-- Settles O38: WF(PERM) makes the cells distinct and populated, and there are as many as populated cells. -/
theorem readSetIsExactlyThePopulatedSet : Obligations.ReadSetIsExactlyThePopulatedSet := fun p =>
  ⟨cells_nodup p, cells_length p.table, mem_cells_iff_populated p⟩

/-- The cell stream bit j is taken from (44_interleaver.md R186). -/
def streamCell (t : PermTable) (j : Nat) : Nat × Nat := if j % 2 = 0 then t.hiCell (j / 2) else t.loCell (j / 2)

/-- Stream bit j is the bit of its cell. -/
theorem streamBit_eq_cell (p : Perm) (M : FrameMatrix) (j : Nat) :
    streamBit p M j = cell M (streamCell p.table j).1 (streamCell p.table j).2 := by
  unfold streamBit streamCell
  split <;> rfl

/-- Stream bit 2i is taken from the high cell of pair i. -/
theorem streamCell_two_mul (t : PermTable) (i : Nat) : streamCell t (2 * i) = t.hiCell i := by
  simp [streamCell]

/-- Stream bit 2i + 1 is taken from the low cell of pair i. -/
theorem streamCell_two_mul_add_one (t : PermTable) (i : Nat) : streamCell t (2 * i + 1) = t.loCell i := by
  have pair : (2 * i + 1) / 2 = i := by omega
  simp [streamCell, pair]

/-- Stream bit 2i is the high bit of pair i (44_interleaver.md R186). -/
theorem streamBit_two_mul (p : Perm) (M : FrameMatrix) (i : Nat) :
    streamBit p M (2 * i) = cell M (p.table.rW.getD i 0) (p.table.rX.getD i 0) := by
  rw [streamBit_eq_cell, streamCell_two_mul, PermTable.hiCell]

/-- Stream bit 2i + 1 is the low bit of pair i (44_interleaver.md R186). -/
theorem streamBit_two_mul_add_one (p : Perm) (M : FrameMatrix) (i : Nat) :
    streamBit p M (2 * i + 1) = cell M (p.table.rY.getD i 0) (p.table.rZ.getD i 0) := by
  rw [streamBit_eq_cell, streamCell_two_mul_add_one, PermTable.loCell]

/-- Stream bit j is bit 7 - j mod 8 of byte j div 8 (20_memory.md R51). -/
theorem interleave_byte_getLsbD (p : Perm) (M : FrameMatrix) {j : Nat} (hj : j < 72) :
    ((interleave p M).getD (j / 8) 0#8).getLsbD (7 - j % 8) = streamBit p M j := by
  have inside : j / 8 < 9 := by omega
  have byte : (interleave p M).getD (j / 8) 0#8 = ofSeq 8 fun t => streamBit p M (8 * (j / 8) + t) := by
    simp [interleave_eq_stream, inside]
  have bit : 7 - j % 8 < 8 := by omega
  have place : 8 * (j / 8) + (8 - 1 - (7 - j % 8)) = j := by omega
  rw [byte, getLsbD_ofSeq, place]
  simp [bit]

/-- Settles O39: pair i is stream bits 2i and 2i + 1, and eight stream bits make a byte. -/
theorem interleavePlacesEveryPair : Obligations.InterleavePlacesEveryPair := by
  refine fun p M => ⟨by simp [interleave_eq_stream], fun i hi => ⟨?high, ?low⟩⟩
  case high =>
    have byte : 2 * i / 8 = i / 4 := by omega
    have bit : 7 - 2 * i % 8 = 7 - 2 * (i % 4) := by omega
    rw [← byte, ← bit, interleave_byte_getLsbD p M (by omega), streamBit_two_mul]
  case low =>
    have byte : (2 * i + 1) / 8 = i / 4 := by omega
    have bit : 7 - (2 * i + 1) % 8 = 6 - 2 * (i % 4) := by omega
    rw [← byte, ← bit, interleave_byte_getLsbD p M (by omega), streamBit_two_mul_add_one]

/-- A cell PERM names is a bit of the operand (10_state.md R36; 44_interleaver.md R180). -/
theorem cell_eq_getLsbD_of_mem_cells (p : Perm) (M : FrameMatrix) {r c : Nat} (h : (r, c) ∈ p.table.cells) :
    cell M r c = M.getLsbD (95 - (24 * r + c)) :=
  have ⟨hr, hc⟩ := lt_of_populated (populated_of_mem_cells p h)
  cell_eq_getLsbD M hr hc

/-- Settles O40: stream bit j stands at RESULT[71-j], and the cells read lie in the operand. -/
theorem interleaveCommandWritesTheStream : Obligations.InterleaveCommandWritesTheStream := by
  refine fun s opnd => ⟨_, exec_interleave opnd s, resultBytes_interleave_toNat_lt s.perm opnd, fun i hi => ?_⟩
  obtain ⟨hhi, hlo⟩ := pair_mem_cells s.perm.table hi
  have low : 70 - 2 * i = 71 - (2 * i + 1) := by omega
  rw [low, resultBytes_interleave_getLsbD s.perm opnd (by omega), resultBytes_interleave_getLsbD s.perm opnd (by omega),
    streamBit_two_mul, streamBit_two_mul_add_one]
  exact ⟨cell_eq_getLsbD_of_mem_cells s.perm opnd hhi, cell_eq_getLsbD_of_mem_cells s.perm opnd hlo⟩

/-- The cells of the first n pairs are those of the first 2n stream bits. -/
theorem pairs_eq_map_streamCell (t : PermTable) (n : Nat) :
    ((List.range n).flatMap fun i => [t.hiCell i, t.loCell i]) = (List.range (2 * n)).map (streamCell t) := by
  induction n with
  | zero => rfl
  | succ n ih =>
    rw [List.range_succ, List.flatMap_append, ih, Nat.mul_add_one, List.range_succ, List.range_succ]
    simp [streamCell_two_mul, streamCell_two_mul_add_one]

/-- The 72 cells PERM names, in the order of the stream (44_interleaver.md R181, R186). -/
theorem cells_eq_map_streamCell (t : PermTable) : t.cells = (List.range 72).map (streamCell t) :=
  pairs_eq_map_streamCell t 36

/-- PERM names the cell of every stream bit. -/
theorem streamCell_mem_cells (t : PermTable) {j : Nat} (hj : j < 72) : streamCell t j ∈ t.cells := by
  rw [cells_eq_map_streamCell]
  exact List.mem_map_of_mem (List.mem_range.mpr hj)

/-- Every populated cell is the cell of a stream bit (44_interleaver.md R182). -/
theorem exists_streamCell_of_populated (p : Perm) {r c : Nat} (h : populated r c = true) :
    ∃ j, j < 72 ∧ streamCell p.table j = (r, c) := by
  have named := mem_cells_of_populated p h
  rw [cells_eq_map_streamCell] at named
  obtain ⟨j, hj, hcell⟩ := List.mem_map.mp named
  exact ⟨j, List.mem_range.mp hj, hcell⟩

/-- The cell of stream bit j is the j-th that PERM names, and it is named once (44_interleaver.md R181). -/
theorem idxOf_streamCell (p : Perm) {j : Nat} (hj : j < 72) : p.table.cells.idxOf (streamCell p.table j) = j := by
  have inside : j < p.table.cells.length := by rwa [cells_length]
  have here : p.table.cells[j] = streamCell p.table j := by simp [cells_eq_map_streamCell]
  rw [← here]
  exact (cells_nodup p).idxOf_getElem j inside

/-- Bit j of the 72-bit stream is the bit of its cell (20_memory.md R54; 44_interleaver.md R186). -/
theorem streamOf_interleave_getMsbD (p : Perm) (M : FrameMatrix) {j : Nat} (hj : j < 72) :
    (streamOf (interleave p M)).getMsbD j = cell M (streamCell p.table j).1 (streamCell p.table j).2 := by
  have inside : 71 - j < 72 := by omega
  rw [← streamBit_eq_cell, ← resultBytes_interleave_getLsbD p M hj]
  simp [streamOf, BitVec.getMsbD, hj, inside]

/-- Deinterleaving puts stream bit j in its cell (44_interleaver.md R187). -/
theorem cell_deinterleave_streamCell (p : Perm) (x : BitVec 72) {j : Nat} (hj : j < 72) :
    cell (deinterleave p x) (streamCell p.table j).1 (streamCell p.table j).2 = x.getMsbD j := by
  have named := streamCell_mem_cells p.table hj
  obtain ⟨hr, hc⟩ := lt_of_populated (populated_of_mem_cells p named)
  rw [deinterleave, cell_ofCells _ hr hc, if_pos named, idxOf_streamCell p hj]

/-- Interleaving a deinterleaved stream gives the stream (44_interleaver.md R187). -/
theorem streamOf_interleave_deinterleave (p : Perm) (x : BitVec 72) :
    streamOf (interleave p (deinterleave p x)) = x :=
  eq_of_elements fun _ hj => by rw [streamOf_interleave_getMsbD p _ hj, cell_deinterleave_streamCell p x hj]

/-- Deinterleaving recovers the populated cells (44_interleaver.md R187). -/
theorem cell_deinterleave_streamOf_interleave (p : Perm) (M : FrameMatrix) {r c : Nat} (h : populated r c = true) :
    cell (deinterleave p (streamOf (interleave p M))) r c = cell M r c := by
  obtain ⟨j, hj, hcell⟩ := exists_streamCell_of_populated p h
  have bit := cell_deinterleave_streamCell p (streamOf (interleave p M)) hj
  rwa [streamOf_interleave_getMsbD p M hj, hcell] at bit

/-- Two stream positions that hold the same bit for every matrix are one: a stream with a 1 in the second position
only, deinterleaved, tells them apart. -/
theorem eq_of_same_stream_bit (p : Perm) {j k : Nat} (hj : j < 72) (hk : k < 72)
    (h : ∀ M : FrameMatrix, (streamOf (interleave p M)).getMsbD k = (streamOf (interleave p M)).getMsbD j) : k = j := by
  have bit := h (deinterleave p (ofSeq 72 fun i => decide (i = j)))
  simpa [streamOf_interleave_deinterleave, getMsbD_ofSeq, hj, hk] using bit

/-- The number of 1 bits, counted from the most significant end. -/
theorem ones_eq_countP_getMsbD {n : Nat} (w : BitVec n) : ones w = (List.range n).countP w.getMsbD := by
  have mirrored : (List.range n).reverse = (List.range n).map fun i => n - 1 - i := by
    simp [List.range_eq_range', List.reverse_range']
  rw [ones, ← List.countP_eq_length_filter, ← List.countP_reverse, mirrored, List.countP_map]
  refine List.countP_congr fun i hi => ?_
  simp [BitVec.getMsbD, List.mem_range.mp hi]

/-- PERM names the populated cells in some order (44_interleaver.md R182). -/
theorem cells_perm_populatedCells (p : Perm) : p.table.cells.Perm populatedCells :=
  (List.perm_ext_iff_of_nodup (cells_nodup p) (by decide +kernel)).mpr fun (r, c) =>
    (mem_cells_iff_populated p r c).trans mem_populatedCells.symm

/-- The number of 1 bits over P, counted along the list of populated cells. -/
theorem onesOverP_eq_countP (M : FrameMatrix) : onesOverP M = populatedCells.countP fun rc => cell M rc.1 rc.2 := by
  rw [onesOverP, populatedCells, List.countP_filter, List.countP_map, List.countP_eq_length_filter]
  simp only [Function.comp_def, Bool.and_comm]

/-- The stream has as many 1 bits as the populated cells (44_interleaver.md R187). -/
theorem ones_streamOf_interleave (p : Perm) (M : FrameMatrix) : ones (streamOf (interleave p M)) = onesOverP M :=
  calc ones (streamOf (interleave p M))
    _ = (List.range 72).countP (streamOf (interleave p M)).getMsbD := ones_eq_countP_getMsbD _
    _ = (List.range 72).countP fun j => cell M (streamCell p.table j).1 (streamCell p.table j).2 :=
      List.countP_congr fun j hj => by rw [streamOf_interleave_getMsbD p M (List.mem_range.mp hj)]
    _ = p.table.cells.countP fun rc => cell M rc.1 rc.2 := by
      rw [cells_eq_map_streamCell, List.countP_map]
      rfl
    _ = populatedCells.countP fun rc => cell M rc.1 rc.2 := (cells_perm_populatedCells p).countP_eq _
    _ = onesOverP M := (onesOverP_eq_countP M).symm

/-- Settles O41: the stream positions and the populated cells correspond one to one. -/
theorem interleaveIsABijection : Obligations.InterleaveIsABijection := by
  refine fun p => ⟨ones_streamOf_interleave p, fun M r c => cell_deinterleave_streamOf_interleave p M,
    streamOf_interleave_deinterleave p, fun r c h => ?_⟩
  obtain ⟨j, hj, hcell⟩ := exists_streamCell_of_populated p h
  have bit (M : FrameMatrix) : (streamOf (interleave p M)).getMsbD j = cell M r c := by
    rw [streamOf_interleave_getMsbD p M hj, hcell]
  exact ⟨j, hj, bit, fun k hk same => eq_of_same_stream_bit p hj hk fun M => (same M).trans (bit M).symm⟩

end Sys2Proof.Machine
end

section
/-! SUPPORT. The errors of the CORE (60_exceptions.md R200 to R206, R216): each outcome of a command word by its
fields, in the order of the checks, and what every reachable state keeps. -/

namespace Sys2Proof.Machine

open Sys2Proof Sys2Proof.Claims

/-- ENCODE and UNPACK with LEN not 7 are the length error (60_exceptions.md R201). -/
theorem exec_of_len_ne {i : Instr} (hopc : i.opc = 1#8 ∨ i.opc = 2#8) (hlen : i.len ≠ 7#8) (s : State) :
    exec i s = .next (raise .invalidInputLength i.opc s) := by
  cases i with
  | encode len opnd => exact exec_encode_of_len_ne hlen opnd s
  | unpack len opnd => exact if_pos hlen
  | golay | parity | assemble | scramble | interleave => simp [Instr.opc] at hopc

/-- A command without the length error completes (60_exceptions.md R205). -/
theorem exec_of_len_ok {i : Instr} (h : i.opc = 1#8 ∨ i.opc = 2#8 → i.len = 7#8) (s : State) :
    ∃ x, exec i s = .next (respond i.opc x s) := by
  rcases exec_sets_resp i s with hok | ⟨hopc, hlen, -⟩
  · exact hok
  · exact absurd (h hopc) hlen

/-- Settles O20: a command's STATUS is OK but for the length error of ENCODE and UNPACK. -/
theorem onlyWrongLengthGivesLengthStatus : Obligations.OnlyWrongLengthGivesLengthStatus := by
  refine ⟨fun s len opnd h => ⟨exec_of_len_ne (i := .encode len opnd) (.inl rfl) h s,
    exec_of_len_ne (i := .unpack len opnd) (.inr rfl) h s⟩, fun s t i hexec hstatus => ?_⟩
  rcases exec_sets_resp i s with ⟨x, hok⟩ | ⟨hopc, hlen, -⟩
  · obtain rfl := Host.Outcome.next.inj (hok.symm.trans hexec)
    exact absurd hstatus (show statusOk ≠ statusInvalidInputLength by decide)
  · exact ⟨hopc, hlen⟩

/-- Check (1) fails: an illegal word is answered (60_exceptions.md R202, R206). -/
theorem runCommand_of_listedIllegal {w : CmdWord} (h : listedIllegal w) (s : State) :
    runCommand w s = .next (raise .illegalCommand (opcField w) s) := by
  obtain ⟨e, he⟩ := exists_decode_error_iff_listedIllegal.mpr h
  rw [runCommand, he, answerIllegal]

/-- Check (1) passes: a legal word runs a command with the word's OPC and LEN (60_exceptions.md R206). -/
theorem runCommand_of_not_listedIllegal {w : CmdWord} (h : ¬ listedIllegal w) (s : State) :
    ∃ i : Instr, opcField w = i.opc ∧ lenField w = i.len ∧ runCommand w s = exec i s := by
  rcases runCommand_cases w s with ⟨e, he, -⟩ | ⟨i, hi, hrun⟩
  · exact absurd (exists_decode_error_iff_listedIllegal.mp ⟨e, he⟩) h
  · obtain ⟨hopc, hlen, -⟩ := decode_eq_ok_iff.mp hi
    exact ⟨i, hopc, hlen, hrun⟩

/-- Check (2) fails: a legal ENCODE or UNPACK word with LEN not 7 (60_exceptions.md R201, R206). -/
theorem runCommand_of_len_ne {w : CmdWord} (h : ¬ listedIllegal w) (hopc : opcField w = 1#8 ∨ opcField w = 2#8)
    (hlen : lenField w ≠ 7#8) (s : State) :
    runCommand w s = .next (raise .invalidInputLength (opcField w) s) := by
  obtain ⟨i, hi, hl, hrun⟩ := runCommand_of_not_listedIllegal h s
  rw [hrun, hi]
  exact exec_of_len_ne (hi ▸ hopc) (hl ▸ hlen) s

/-- Both checks pass: the command completes (60_exceptions.md R205, R206). -/
theorem runCommand_of_len_ok {w : CmdWord} (h : ¬ listedIllegal w)
    (hlen : opcField w = 1#8 ∨ opcField w = 2#8 → lenField w = 7#8) (s : State) :
    ∃ x, runCommand w s = .next (respond (opcField w) x s) := by
  obtain ⟨i, hi, hl, hrun⟩ := runCommand_of_not_listedIllegal h s
  rw [hi, hl] at hlen
  rw [hrun, hi]
  exact exec_of_len_ok hlen s

/-- The listed illegal words by their fields (30_encoding.md R79). -/
theorem listedIllegal_mkCmd_iff {opc len : BitVec 8} {rsvd : BitVec 16} {opnd : Operand} :
    listedIllegal (mkCmd opc len rsvd opnd) ↔
      rsvd ≠ 0#16 ∨ opc.toNat = 0 ∨ 8 ≤ opc.toNat ∨ (3 ≤ opc.toNat ∧ len ≠ 0#8) := by
  obtain ⟨hopc, hlen, hrsvd, -⟩ := Laws.EncodedFields.fields_of_mkCmd opc len rsvd opnd
  rw [listedIllegal, ← opcField_toNat, ← lenField_toNat, ← rsvdField_toNat, hopc, hlen, hrsvd, ne_eq rsvd, ne_eq len,
    BitVec.toNat_eq, BitVec.toNat_eq]
  simp only [BitVec.toNat_ofNat, Nat.zero_mod]
  omega

/-- The words that pass check (1), by their fields (30_encoding.md R78). -/
theorem not_listedIllegal_mkCmd {opc len : BitVec 8} (opnd : Operand) (h1 : 1 ≤ opc.toNat) (h7 : opc.toNat ≤ 7)
    (hlen : 3 ≤ opc.toNat → len = 0#8) : ¬ listedIllegal (mkCmd opc len 0#16 opnd) := by
  rw [listedIllegal_mkCmd_iff]
  rintro (h | h | h | ⟨h3, h⟩)
  · exact h rfl
  · omega
  · omega
  · exact h (hlen h3)

/-- Settles O7: the word is illegal by its fields, has the wrong length, or completes. -/
theorem decodingIsCheckedBeforeLength : Obligations.DecodingIsCheckedBeforeLength := by
  intro s opc len rsvd opnd rest hs
  obtain ⟨hopc, hlen, -, -⟩ := Laws.EncodedFields.fields_of_mkCmd opc len rsvd opnd
  have illegal := runCommand_of_listedIllegal (w := mkCmd opc len rsvd opnd)
  have wrongLength := runCommand_of_len_ne (w := mkCmd opc len rsvd opnd)
  have completes := runCommand_of_len_ok (w := mkCmd opc len rsvd opnd)
  rw [listedIllegal_mkCmd_iff, hopc] at illegal
  rw [hopc, hlen] at wrongLength completes
  have range : opc = 1#8 ∨ opc = 2#8 → 1 ≤ opc.toNat ∧ opc.toNat < 3 := by
    rintro (rfl | rfl) <;> decide
  have legal (h12 : opc = 1#8 ∨ opc = 2#8) : ¬ listedIllegal (mkCmd opc len 0#16 opnd) := by
    obtain ⟨h1, h3⟩ := range h12
    exact not_listedIllegal_mkCmd opnd h1 (by omega) (by omega)
  rw [step_writeCmd hs]
  refine ⟨fun h => illegal h _, ?length, ?ok, ?stage⟩
  case length =>
    rintro rfl h12 h7
    exact wrongLength (legal h12) h12 h7 _
  case ok =>
    rintro rfl h12 h7
    exact completes (legal h12) (fun _ => h7) _
  case stage =>
    rintro rfl h3 h7 h0
    refine completes (not_listedIllegal_mkCmd opnd (by omega) h7 fun _ => h0) (fun h12 => ?_) _
    obtain ⟨-, hlt⟩ := range h12
    omega

/-- An ill-formed table is refused at configuration (60_exceptions.md R216). -/
theorem configure_of_not_wf {t : PermTable} (h : t.wf = false) : State.configure t = .refused .illFormedPerm :=
  dif_neg (Bool.eq_false_iff.mp h)

/-- A well-formed table is configured, and the machine reset (70_reset_and_hazards.md R233). -/
theorem configure_of_wf {t : PermTable} (h : t.wf = true) :
    State.configure t = .next { State.reset with perm := { table := t, wf := h } } :=
  dif_pos h

/-- Settles O8: every step gives a next state, and configuration decides on WF(PERM) alone. -/
theorem everyStepGivesANextState : Obligations.EveryStepGivesANextState := by
  refine ⟨fun s => ?_, fun t h => configure_of_not_wf h, fun t h => ⟨_, configure_of_wf h, rfl, rfl⟩⟩
  obtain ⟨t, ht, -⟩ := step_next_keeps_perm s
  exact ⟨t, ht⟩

/-- The invariant holds after reset, speaks of nothing the host places, and every step keeps it. -/
theorem Reachable.inv {s : State} (h : Reachable s) : s.Inv := by
  induction h with
  | start p => exact resetMeetsTheInvariant
  | place s a _ ih => exact ih
  | step s s' _ hstep ih => exact everyStepKeepsRespLegal s s' ih hstep

/-- Settles O52: the invariant by induction on how the state is reached; runs complete from every state. -/
theorem reachableStatesAreSafe : Obligations.ReachableStatesAreSafe := by
  refine fun s h => ⟨h.inv, fun n => ?_⟩
  obtain ⟨t, ht, -⟩ := runsNeverChangePerm n s
  exact ⟨t, ht⟩

end Sys2Proof.Machine
end

section
/-! SUPPORT. The step that performs a reset (70_reset_and_hazards.md R230, 10_state.md R42). -/

namespace Sys2Proof.Machine

open Sys2Proof

/-- The step that performs a reset takes it off the host's list and resets the CORE. -/
theorem step_reset {s : State} {rest : List HostAction} (h : s.host = .reset :: rest) :
    step s = .next (applyReset { s with host := rest }) := by
  simp [step, takeAction, h]

/-- Settles O11: the step is `applyReset`, which writes RESP's reset value and nothing else. -/
theorem resetActionResetsRespOnly : Obligations.ResetActionResetsRespOnly :=
  fun _ _ hs => step_reset hs

end Sys2Proof.Machine
end

section
/-! SUPPORT. The step with no host action pending (10_state.md section 1; DESIGN CHOICE, log entry 3). -/

namespace Sys2Proof.Machine

open Sys2Proof

/-- An empty list of host actions gives no action to take. -/
theorem takeAction_of_host_nil {s : State} (h : s.host = []) : takeAction s = none := by
  rw [takeAction, h]

/-- Settles O9: with no action to take, a step answers with the state it was given. -/
theorem idleMachineStaysAsItIs : Obligations.IdleMachineStaysAsItIs := by
  intro s hs
  have hnone : takeAction s = none := takeAction_of_host_nil hs
  rw [step, hnone]

end Sys2Proof.Machine
end
